-- ==== Sys2Proof/Word.lean ====
section
/-! DEFINITION. The words of CORE (spec/00_scope.md R8, R9; spec/30_encoding.md R53, R54): the widths that the spec
gives to bytes, words, blocks and the two port vectors, and the values the input ports may carry. Everything that
says where a byte stands in them is in Machine/Operands.lean. -/

namespace Sys2Proof

/-- An 8-bit unsigned value (R9). -/
abbrev Byte := BitVec 8

/-- Four bytes, 32 bits (R9, R20). -/
abbrev Word := BitVec 32

/-- Sixteen bytes, as the 128-bit vector of the ports (R9, R24). -/
abbrev Block := BitVec 128

/-- A block or stage value as the byte sequence `B[0..15]` (R9, R45). -/
abbrev Bytes := Vector Byte 16

/-- The four working words `t[0..3]`, or a stage value `S_r` (R20, R21). -/
abbrev Words := Vector Word 4

/-- The cycle input vector `I`: `rst` is bit 129, `in_valid` bit 128, `in_block` bits 127..0 (R53). -/
abbrev CycleVector := BitVec 130

/-- The output vector `O`: `out_valid` is bit 128, `out_block` bits 127..0 (R54). -/
abbrev OutputVector := BitVec 129

/-- What the three input ports carry in one cycle. `none` says that at least one bit of that port is neither 0 nor 1
(unknown, floating or metastable: R112), which is all that a rule asks about such a value. -/
structure Ports where
  rst : Option Bool
  inValid : Option Bool
  inBlock : Option Block
deriving DecidableEq, Repr

end Sys2Proof
end

