-- ==== Sys2Proof/Config.lean ====
section
/-! DEFINITION. What one CORE instance fixes when it is built, and the free values (spec/00_scope.md R7,
spec/10_state.md R34, spec/70_reset_and_hazards.md R114). The open parameters have no body, so no proof can know a
value of theirs (assumption log 5, 6, 7). -/

namespace Sys2Proof

/-- The parameters that `ENC[P_SBOX, P_TE, P_RK]` depends on (R7, R89). No relation between them is assumed (R70). -/
structure Tables where
  /-- `P_SBOX`, the forward SBox ROM: 256 entries of one byte (R36). -/
  sbox : Byte → Byte
  /-- `P_TE`, the four combined-table ROMs: 256 entries of one word each (R37). -/
  te : Fin 4 → Byte → Word
  /-- `P_RK`, the eleven hardwired round keys (R43). -/
  rk : Fin 11 → Block

/-- `P_SBOX` of this instance: OPEN (R7, decision D6). -/
opaque Config.sbox : Byte → Byte

/-- `P_TE` of this instance: OPEN (R7, decision D6). -/
opaque Config.te : Fin 4 → Byte → Word

/-- `P_RK` of this instance: OPEN (R7, decision D6). -/
opaque Config.rk : Fin 11 → Block

/-- The constants of this instance (R23, R34, R41, R43): no operation writes them. -/
def Config.tables : Tables := { sbox := Config.sbox, te := Config.te, rk := Config.rk }

/-- How many slots this instance has beyond the first: OPEN (R7, decision D8). -/
opaque Config.extraSlots : Nat

/-- `LATENCY`, at least 1 (R7, R24). -/
def Config.latency : Nat := Config.extraSlots + 1

/-- The draw that `Q[k].v` holds at power-up (R114): a free value. -/
opaque Config.powerUpValid : Nat → Bool

/-- The draw that `Q[k].d` holds from power-up until a result arrives (R32, R114): a free value. -/
opaque Config.powerUpData : Nat → Block

end Sys2Proof
end

