-- ==== Sys2Proof/Syntax.lean ====
section
/-! DEFINITION. CORE's operations (spec/30_encoding.md section 2, spec/44_operations.md R88): one constructor for each
row of spec/opcode_table.json. The bits that RESET and IDLE ignore are no operands (R55, R56). -/

namespace Sys2Proof

inductive Instr where
  /-- RESET: `rst = 1` (R55, R92). -/
  | reset
  /-- IDLE: `rst = 0`, `in_valid = 0` (R56, R91). -/
  | idle
  /-- ENCRYPT B: `rst = 0`, `in_valid = 1`, `B` on `in_block` (R57, R58, R90). -/
  | encrypt (block : Block)
deriving DecidableEq, Repr

/-- The operation's name in spec/opcode_table.json. -/
def Instr.mnemonic : Instr → String
  | .reset => "RESET"
  | .idle => "IDLE"
  | .encrypt _ => "ENCRYPT"

end Sys2Proof
end

