-- ==== Sys2Proof/WellFormed.lean ====
section
/-! DEFINITION. Which terms are well formed. An operation of CORE always is: its one operand is exactly 16 bytes by its
type and "Every one of the 2^128 operand values is a legal block" (spec/30_encoding.md R62, spec/60_exceptions.md R101).
The lines of a test program (R64, R65) can be ill formed, and are checked here. -/

namespace Sys2Proof

/-- Every operation is well formed (R62, R101). -/
def Instr.wellFormed : Instr → Bool
  | .reset => true
  | .idle => true
  | .encrypt _ => true

/-- One line of a test program (R64), or the pseudo-operation WAIT (R65). -/
inductive Line where
  | reset
  | idle
  /-- `ENCRYPT <hex>`, the digits in the order they are written. -/
  | encrypt (digits : List (Fin 16))
  /-- `WAIT n`: n IDLE lines. -/
  | wait (n : Nat)
deriving DecidableEq, Repr

/-- `<hex>` is exactly 32 digits (R64), and `WAIT n` has n >= 1 (R65). -/
def Line.wellFormed : Line → Bool
  | .reset => true
  | .idle => true
  | .encrypt digits => digits.length == 32
  | .wait n => decide (1 ≤ n)

end Sys2Proof
end

