-- ==== Sys2Proof/Decode.lean ====
section
/-! DEFINITION. Decoding the input vector and the input ports (spec/30_encoding.md R53, R55 to R57, R62;
spec/60_exceptions.md R112), and encoding back. Decoding a vector is total; what the ports carry decodes unless it
breaks the host contract, and then it is rejected by name. -/

namespace Sys2Proof

/-- `rst·2^129 + in_valid·2^128 + in_block`, the vector `{rst, in_valid, in_block}` (R53). -/
def packVector (rst inValid : Bool) (inBlock : Block) : CycleVector :=
  BitVec.ofBool rst ++ BitVec.ofBool inValid ++ inBlock

/-- `I[129]` (R53). -/
def vectorRst (I : CycleVector) : Bool := I.extractLsb' 129 1 == 1#1

/-- `I[128]` (R53). -/
def vectorInValid (I : CycleVector) : Bool := I.extractLsb' 128 1 == 1#1

/-- `I[127:0]` (R53). -/
def vectorInBlock (I : CycleVector) : Block := I.extractLsb' 0 128

/-- The operation map (R55, R56, R57): `rst` decides first (R104), then `in_valid`. -/
def decode (I : CycleVector) : Instr :=
  if vectorRst I then .reset
  else if vectorInValid I then .encrypt (vectorInBlock I)
  else .idle

/-- Why the input contract of R112 is broken in a cycle. -/
inductive PortReject where
  /-- `rst` is neither 0 nor 1. -/
  | rstUnknown
  /-- `in_valid` is neither 0 nor 1. -/
  | inValidUnknown
  /-- `in_valid = 1` and some bit of `in_block` is neither 0 nor 1. -/
  | inBlockUnknown
deriving DecidableEq, Repr

/-- What the ports select in a cycle, or how they break the contract of R112. With `in_valid = 0` the value of
`in_block` is not asked for: IDLE ignores it (R56), and so does RESET (R55). -/
def decodePorts (p : Ports) : Except PortReject Instr :=
  match p.rst, p.inValid, p.inBlock with
  | none, _, _ => .error .rstUnknown
  | some _, none, _ => .error .inValidUnknown
  | some _, some true, none => .error .inBlockUnknown
  | some rst, some true, some b => .ok (decode (packVector rst true b))
  | some rst, some false, b => .ok (decode (packVector rst false (b.getD 0)))

/-- The ports that carry the vector `I`, every bit of them 0 or 1 (R53). -/
def vectorPorts (I : CycleVector) : Ports :=
  { rst := some (vectorRst I), inValid := some (vectorInValid I), inBlock := some (vectorInBlock I) }

/-- The vector that a line of R64 drives: the bits an operation ignores are 0. -/
def encode : Instr → CycleVector
  | .reset => packVector true false 0
  | .idle => packVector false false 0
  | .encrypt b => packVector false true b

/-- One row of spec/opcode_table.json: the vectors `I` with `I &&& mask = pattern` select the operation. -/
structure OpcodeRow where
  mnemonic : String
  pattern : CycleVector
  mask : CycleVector
deriving DecidableEq, Repr

/-- spec/opcode_table.json, row by row. -/
def opcodeTable : List OpcodeRow :=
  [{ mnemonic := "RESET"
     pattern := 0x200000000000000000000000000000000
     mask := 0x200000000000000000000000000000000 },
   { mnemonic := "IDLE"
     pattern := 0x000000000000000000000000000000000
     mask := 0x300000000000000000000000000000000 },
   { mnemonic := "ENCRYPT"
     pattern := 0x100000000000000000000000000000000
     mask := 0x300000000000000000000000000000000 }]

/-- The row selects the vector. -/
def OpcodeRow.selects (row : OpcodeRow) (I : CycleVector) : Bool := I &&& row.mask == row.pattern

/-- The vector whose bits are `w`, as spec/opcode_table.json numbers them: bits from `nbits` on are 0, and `I` has 130
bits (R53), so bits 130 and above of a row counted in whole bytes are none of it (assumption log 11). -/
def tableVector (nbits w : Nat) : CycleVector := BitVec.ofNat 130 (w % 2 ^ nbits)

/-- What the decoder reads from the vector whose bits are `w`. -/
def decodeTableWord (nbits w : Nat) : Option Instr := some (decode (tableVector nbits w))

end Sys2Proof
end

