-- ==== Sys2Proof/Machine/State.lean ====
section
/-! DEFINITION. The state of CORE (spec/10_state.md R24, R32), the reasons a step can stop, the state at power-up and
the state after reset. CORE has no other state: no program counter, flag, control register or memory (R26 to R29, R35). -/

namespace Sys2Proof.Machine

/-- One in-flight slot `Q[k]` (R24). -/
structure Slot where
  /-- `Q[k].v`: the slot holds the result of a transaction. -/
  v : Bool
  /-- `Q[k].d`: that result, when `v` is set. -/
  d : Block
deriving DecidableEq, Repr

/-- The slots `Q[1] .. Q[LATENCY]` (R24), first to last, so that there is at least one (R7), and what the host drives. -/
structure State where
  /-- `Q[1]`. -/
  q1 : Slot
  /-- `Q[2] .. Q[LATENCY]`, in this order (R30). -/
  later : List Slot
  /-- The model's own field: the port values of this cycle and of the cycles to come, the argument of the step that R31
  keeps out of CORE's state (assumption log 1). No operation reads or writes it. -/
  stimulus : List Ports
deriving DecidableEq, Repr

/-- CORE raises nothing (R100, R105): there is no fault. -/
inductive Fault where
deriving DecidableEq, Repr

/-- Why a step has no meaning. -/
inductive Refusal where
  /-- An operation that the model gives no meaning. No arm of exec raises it. Safe. -/
  | notModelled (mnemonic : String)
  /-- Raised by the step, before any operation: the ports break the host contract of R112. Safe: the run ends. -/
  | inputContract (why : PortReject)
  /-- Raised by the step: the host drives nothing in this cycle (assumption log 2). Safe: the run ends. -/
  | stimulusExhausted
deriving DecidableEq, Repr

/-- What slot `Q[k]` holds at power-up: two free values (R114). -/
def powerUpSlot (k : Nat) : Slot := { v := Config.powerUpValid k, d := Config.powerUpData k }

/-- What slot `Q[k]` holds after the first reset cycle: `v` is 0, and `d` is what it was (R32, R113). -/
def resetSlot (k : Nat) : Slot := { v := false, d := Config.powerUpData k }

/-- CORE at power-up, before any reset (R114; assumption log 8). -/
def State.powerUp : State :=
  { q1 := powerUpSlot 1, later := (List.range' 2 Config.extraSlots).map powerUpSlot, stimulus := [] }

/-- CORE right after one reset cycle (R32, R117): every `Q[k].v` is 0, every `Q[k].d` unspecified, nothing driven yet
(assumption log 1, 7). -/
def State.reset : State :=
  { q1 := resetSlot 1, later := (List.range' 2 Config.extraSlots).map resetSlot, stimulus := [] }

end Sys2Proof.Machine
end

