-- ==== Sys2Proof/Machine/Flags.lean ====
section
/-! DEFINITION. CORE has no flags, condition codes or predicates, and no operation writes one (spec/10_state.md R27,
spec/60_exceptions.md R100). "No operation produces a status bit other than `out_valid`": that bit is here, with the slot
that drives the outputs (R25). -/

namespace Sys2Proof.Machine

/-- `Q[LATENCY]`, the output register (R24, R25). -/
def State.outSlot (s : State) : Slot := s.later.getLastD s.q1

/-- `out_valid = Q[LATENCY].v` (R25). -/
def State.outValid (s : State) : Bool := s.outSlot.v

end Sys2Proof.Machine
end

