-- ==== Sys2Proof/Machine/Operands.lean ====
section
/-! DEFINITION. Where the bytes stand: the byte order of blocks, words, table entries and round keys
(spec/20_memory.md R45 to R49, spec/30_encoding.md R58, R59), the stagger (spec/00_scope.md R12) and the words of a
round key (R43). One convention, decided here once (assumption log 9). -/

namespace Sys2Proof.Machine

/-- Byte `j` of a word: `w[0]` is bits 31..24 (R9). -/
def wordByte (w : Word) (j : Fin 4) : Byte := w.extractLsb' (24 - 8 * j.val) 8

/-- The word `w[0] || w[1] || w[2] || w[3]` (R9, R10). -/
def wordOfBytes (w : Fin 4 → Byte) : Word := w 0 ++ w 1 ++ w 2 ++ w 3

/-- Byte `k` of a block: bits `[127 - 8k : 120 - 8k]` (R9, R58). -/
def blockByte (B : Block) (k : Fin 16) : Byte := B.extractLsb' (120 - 8 * k.val) 8

/-- `word(B, i)`: bits `[127 - 32i : 96 - 32i]` (R58). -/
def word (B : Block) (i : Fin 4) : Word := B.extractLsb' (96 - 32 * i.val) 32

/-- The four words with word `i` given by `f i`. -/
def ofWords (f : Fin 4 → Word) : Words := #v[f 0, f 1, f 2, f 3]

/-- The words of a block (R45). -/
def blockWords (B : Block) : Words := ofWords (word B)

/-- The block whose word `i` is `t[i]`, word 0 most significant (R45, R59, R84). -/
def wordsBlock (t : Words) : Block := t[0] ++ t[1] ++ t[2] ++ t[3]

/-- The block byte `4i + j`, where byte `j` of word `i` stands (R9). -/
def bytePos (i j : Fin 4) : Fin 16 := ⟨4 * i.val + j.val, by omega⟩

/-- The word in which block byte `k` stands: `k div 4` (R47). -/
def wordIndex (k : Fin 16) : Fin 4 := ⟨k.val / 4, by omega⟩

/-- The byte of its word that block byte `k` is: `k mod 4` (R47). -/
def byteIndex (k : Fin 16) : Fin 4 := ⟨k.val % 4, by omega⟩

/-- The byte view of a block: `B[0..15]` (R45, R49). -/
def blockBytes (B : Block) : Bytes := Vector.ofFn (blockByte B)

/-- The block whose byte `k` is `b[k]` (R45, R49). -/
def bytesBlock (b : Bytes) : Block := wordsBlock (ofWords fun i => wordOfBytes fun j => b.get (bytePos i j))

/-- The byte view of four words (R45, R49). -/
def wordsBytes (t : Words) : Bytes := blockBytes (wordsBlock t)

/-- The stagger: `src(t, i, j) = t[(i + j) mod 4][j]` (R12, R75, R80). -/
def src (t : Words) (i j : Fin 4) : Byte := wordByte (t.get (i + j)) j

/-- `RKW(r, i) = word(RK(r), i)` (R43). -/
def roundKeyWord (T : Tables) (r : Fin 11) (i : Fin 4) : Word := word (T.rk r) i

end Sys2Proof.Machine
end

