-- ==== Sys2Proof/Machine/Lookup.lean ====
section
/-! DEFINITION. The Table Set (spec/40_lookup.md): the two lookup primitives. Total functions of their operands, with no
side effect (R39, R40, R69). -/

namespace Sys2Proof.Machine

/-- `TE(c, b) = P_TE(c)(b)` (R67). -/
def teLookup (T : Tables) (c : Fin 4) (b : Byte) : Word := T.te c b

/-- `SBOX(b) = P_SBOX(b)` (R68). -/
def sboxLookup (T : Tables) (b : Byte) : Byte := T.sbox b

end Sys2Proof.Machine
end

