-- ==== Sys2Proof/Machine/Rounds.lean ====
section
/-! DEFINITION. The encryption function (spec/41_whitening.md, 42_main_round.md, 43_final_round.md, 44_operations.md
R89): whitening, nine main rounds, the final round, for the tables of any instance. -/

namespace Sys2Proof.Machine

/-- WHITEN: word i of the input meets word i of round key 0, with no stagger (R72, R73). -/
def whiten (T : Tables) (B : Block) : Words := ofWords fun i => word B i ^^^ roundKeyWord T 0 i

/-- One output word `a[i]` of main round r (R76): column j reads `TE_j` (R61) at `src(t, i, j)` (R60). -/
def roundWord (T : Tables) (r : Fin 11) (t : Words) (i : Fin 4) : Word :=
  teLookup T 0 (src t i 0) ^^^ teLookup T 1 (src t i 1) ^^^ teLookup T 2 (src t i 2) ^^^ teLookup T 3 (src t i 3)
    ^^^ roundKeyWord T r i

/-- ROUND_r: four new words, each from the words before the round (R76, R78). -/
def mainRound (T : Tables) (r : Fin 11) (t : Words) : Words := ofWords (roundWord T r t)

/-- One output byte of the final round: `SBOX(t[(i + j) mod 4][j]) ^ RK(10)[4i + j]` (R83, R86). -/
def finalByte (T : Tables) (t : Words) (i j : Fin 4) : Byte :=
  sboxLookup T (src t i j) ^^^ blockByte (T.rk 10) (bytePos i j)

/-- FINAL with the output assembly: `C = OUT`, word 0 most significant (R83, R84). -/
def finalRound (T : Tables) (t : Words) : Block := wordsBlock (ofWords fun i => wordOfBytes (finalByte T t i))

/-- The main rounds in order, r = 1..9, always nine (R3, R77). -/
def mainRoundNumbers : List (Fin 11) := [1, 2, 3, 4, 5, 6, 7, 8, 9]

/-- The stage value `S_r`: the working words after whitening (r = 0) or main round r (R21). -/
def stage (T : Tables) (B : Block) (r : Nat) : Words :=
  (mainRoundNumbers.take r).foldl (fun t k => mainRound T k t) (whiten T B)

/-- `ENC[P_SBOX, P_TE, P_RK](B)` (R89). -/
def enc (T : Tables) (B : Block) : Block := finalRound T (stage T B 9)

end Sys2Proof.Machine
end

