-- ==== Sys2Proof/Machine/Ops.lean ====
section
/-! DEFINITION. The shared operations over the slots and the ports (spec/10_state.md R24, R25, R31;
spec/44_operations.md R90 to R93). CORE takes no exception and returns from none (spec/60_exceptions.md R100, R105), and
has no memory (spec/20_memory.md R35), so there is no operation for either. -/

namespace Sys2Proof.Machine

/-- `Q[1] .. Q[LATENCY]` (R24). -/
def State.slots (s : State) : List Slot := s.q1 :: s.later

/-- The number of slots, which is `LATENCY` of the instance that the state belongs to (R24). -/
def State.latency (s : State) : Nat := s.later.length + 1

/-- `Q[k]`, for k = 1..LATENCY (R24). -/
def State.slot (s : State) : Nat → Option Slot
  | 0 => none
  | k + 1 => s.slots[k]?

/-- The valid bits `Q[1].v .. Q[LATENCY].v`. -/
def State.valids (s : State) : List Bool := s.slots.map Slot.v

/-- `out_block = Q[LATENCY].d` (R25). -/
def State.outBlock (s : State) : Block := s.outSlot.d

/-- The output vector `O = {out_valid, out_block}` (R54). -/
def State.outVector (s : State) : OutputVector := BitVec.ofBool s.outValid ++ s.outBlock

/-- What slot k becomes when slot k-1 holds `prev` before the edge (R93). -/
def Slot.shiftIn (q prev : Slot) : Slot := { v := prev.v, d := if prev.v then prev.d else q.d }

/-- The slot shift (R93): each slot reads the pre-edge value of the slot before it, the first of them `prev`. -/
def shiftSlots (prev : Slot) : List Slot → List Slot
  | [] => []
  | q :: rest => q.shiftIn prev :: shiftSlots q rest

/-- `Q[k].v <- 0`, `Q[k].d` unchanged (R91, R92). -/
def Slot.invalidate (q : Slot) : Slot := { q with v := false }

/-- The edge at which `q` enters slot 1 and slots 2..LATENCY shift (R90, R91, R93). -/
def State.advance (s : State) (q : Slot) : State := { s with q1 := q, later := shiftSlots s.q1 s.later }

/-- The edge of an ENCRYPT of `B` on the instance `T` (R90). -/
def encryptEdge (T : Tables) (B : Block) (s : State) : State := s.advance { v := true, d := enc T B }

/-- The edge of an IDLE (R91). -/
def idleEdge (s : State) : State := s.advance s.q1.invalidate

/-- The edge of a RESET (R92). -/
def resetEdge (s : State) : State := { s with q1 := s.q1.invalidate, later := s.later.map Slot.invalidate }

/-- The clock-edge step of the instance `T` for the operation `i` (44_operations.md section 2). -/
def edge (T : Tables) (i : Instr) (s : State) : State :=
  match i with
  | .reset => resetEdge s
  | .idle => idleEdge s
  | .encrypt B => encryptEdge T B s

/-- `s` with other values on its ports: this cycle's and the later cycles' (R31). -/
def State.withStimulus (s : State) (inputs : List Ports) : State := { s with stimulus := inputs }

/-- Sampling the inputs at the edge that ends the cycle (R115, R123): the operation that this cycle's port values
select, and the state with only the later cycles' values left. A cycle that breaks the host contract is refused
(R112), and so is one in which the host drives nothing (assumption log 2). -/
def samplePorts (s : State) : Except Refusal (Instr × State) :=
  match s.stimulus with
  | [] => .error .stimulusExhausted
  | p :: rest =>
    match decodePorts p with
    | .error why => .error (.inputContract why)
    | .ok i => .ok (i, s.withStimulus rest)

end Sys2Proof.Machine
end

