-- ==== Sys2Proof/Machine/Operations.lean ====
section
/-! DEFINITION. The meanings of CORE's three operations (spec/44_operations.md section 2). None of them can fail
(spec/60_exceptions.md R100) and each is allowed in every state (R106). -/

namespace Sys2Proof.Machine

/-- RESET (R92, R113): every valid bit is cleared, every data register is left alone. -/
def execReset (s : State) : Host.Outcome State Fault Refusal := .next (resetEdge s)

/-- IDLE (R91): no block enters. -/
def execIdle (s : State) : Host.Outcome State Fault Refusal := .next (idleEdge s)

/-- ENCRYPT B (R90): `ENC(B)` of this instance enters slot 1. -/
def execEncrypt (B : Block) (s : State) : Host.Outcome State Fault Refusal := .next (encryptEdge Config.tables B s)

end Sys2Proof.Machine
end

