-- ==== Sys2Proof/Machine/Step.lean ====
section
/-! DEFINITION. One step is one rising edge of `clk` (spec/70_reset_and_hazards.md R115): the inputs of the cycle that
ends are sampled, decoded and executed. There is no program counter and no fetch (spec/10_state.md R26). -/

namespace Sys2Proof.Machine

def step (s : State) : Host.Outcome State Fault Refusal :=
  match samplePorts s with
  | .error r => .refused r
  | .ok (i, s') => exec i s'

/-- `s` with the vector of `w` (spec/opcode_table.json's numbering) on the ports in the current cycle; the values of the
later cycles stay (assumption log 1). -/
def State.withFetchWord (s : State) (nbits w : Nat) : State :=
  s.withStimulus (vectorPorts (tableVector nbits w) :: s.stimulus.tail)

end Sys2Proof.Machine
end

