-- ==== Sys2Proof/Machine/ByteView.lean ====
section
/-! DEFINITION. Every rule of the datapath in the byte view (spec/20_memory.md R49): whitening, main round and final round
on the byte sequence `B[0..15]`, one byte at a time, beside the word view of Machine/Rounds.lean that the machine uses. The
spec says that the two give the same result; an obligation states it. -/

namespace Sys2Proof.Machine

/-- The stagger in the byte view: the byte for output byte `k`'s word at column `c` is block byte `4((i + c) mod 4) + c`
with `i = k div 4` (R12, R49, R81). -/
def srcByte (b : Bytes) (k : Fin 16) (c : Fin 4) : Byte := b.get (bytePos (wordIndex k + c) c)

/-- WHITEN byte by byte: `RK(0)[k]` meets block byte `k` (R47, R49, R72). -/
def whitenBytes (T : Tables) (b : Bytes) : Bytes := Vector.ofFn fun k => b.get k ^^^ blockByte (T.rk 0) k

/-- One output byte of main round r: byte `k mod 4` of the four entries, and `RK(r)[k]` (R46, R47, R49, R79). -/
def roundByte (T : Tables) (r : Fin 11) (b : Bytes) (k : Fin 16) : Byte :=
  wordByte (teLookup T 0 (srcByte b k 0)) (byteIndex k) ^^^ wordByte (teLookup T 1 (srcByte b k 1)) (byteIndex k)
    ^^^ wordByte (teLookup T 2 (srcByte b k 2)) (byteIndex k) ^^^ wordByte (teLookup T 3 (srcByte b k 3)) (byteIndex k)
    ^^^ blockByte (T.rk r) k

/-- ROUND_r byte by byte (R49, R79). -/
def mainRoundBytes (T : Tables) (r : Fin 11) (b : Bytes) : Bytes := Vector.ofFn (roundByte T r b)

/-- FINAL byte by byte: the SBox of the staggered byte at column `k mod 4`, and `RK(10)[k]` (R47, R49, R83). -/
def finalRoundBytes (T : Tables) (b : Bytes) : Bytes :=
  Vector.ofFn fun k => sboxLookup T (srcByte b k (byteIndex k)) ^^^ blockByte (T.rk 10) k

/-- The stage value `S_r` in the byte view (R21, R49). -/
def stageBytes (T : Tables) (b : Bytes) (r : Nat) : Bytes :=
  (mainRoundNumbers.take r).foldl (fun t k => mainRoundBytes T k t) (whitenBytes T b)

/-- `ENC` in the byte view (R49, R89). -/
def encBytes (T : Tables) (b : Bytes) : Bytes := finalRoundBytes T (stageBytes T b 9)

end Sys2Proof.Machine
end

