-- ==== Sys2Proof/Machine/Instantiations.lean ====
section
/-! DEFINITION. The instantiations that spec/93_implementation_defined.md defines: candidate values of the parameters,
never facts of CORE (R70). T1 to T3 are the spec's own toys; G1 and G2 are general knowledge (assumption log 16). No step
of the machine reads them: tests do, and claims that name one of them as a premise. -/

namespace Sys2Proof.Machine

/-- Round keys from a list of eleven blocks, `RK(0)` first. -/
def keysOf (blocks : List Block) : Fin 11 → Block := fun r => blocks.getD r.val 0

/-- The TE tables of `INST_SHIFT`: `TE(c, b)[k] = b` if `k = c`, else 0 (T1). -/
def shiftTe (c : Fin 4) (b : Byte) : Word := wordOfBytes fun k => if k = c then b else 0

/-- `RK(r)` is the block whose 16 bytes all equal r (T2). -/
def countKey (r : Fin 11) : Block :=
  wordsBlock (ofWords fun _ => wordOfBytes fun _ => BitVec.ofNat 8 r.val)

/-- `INST_SHIFT` (T1): the identity SBox, pure byte-moving tables, zero round keys. -/
def instShift : Tables := { sbox := fun b => b, te := shiftTe, rk := fun _ => 0 }

/-- `INST_XOR` (T2): zero tables, so that only round keys reach the output. -/
def instXor : Tables := { sbox := fun b => b, te := fun _ _ => 0, rk := countKey }

/-- `INST_SHIFTK` (T3): `INST_SHIFT` with the round keys of `INST_XOR`. -/
def instShiftK : Tables := { instShift with rk := countKey }

/-- `AES_SBOX` as one ROM, entry 0x00 most significant, one line for each two rows of G1's table. -/
def aesSboxRom : BitVec 2048 :=
  0x637c777bf26b6fc53001672bfed7ab76ca82c97dfa5947f0add4a2af9ca472c0#256 ++
  0xb7fd9326363ff7cc34a5e5f171d8311504c723c31896059a071280e2eb27b275#256 ++
  0x09832c1a1b6e5aa0523bd6b329e32f8453d100ed20fcb15b6acbbe394a4c58cf#256 ++
  0xd0efaafb434d338545f9027f503c9fa851a3408f929d38f5bcb6da2110fff3d2#256 ++
  0xcd0c13ec5f974417c4a77e3d645d197360814fdc222a908846eeb814de5e0bdb#256 ++
  0xe0323a0a4906245cc2d3ac629195e479e7c8376d8dd54ea96c56f4ea657aae08#256 ++
  0xba78252e1ca6b4c6e8dd741f4bbd8b8a703eb5664803f60e613557b986c11d9e#256 ++
  0xe1f8981169d98e949b1e87e9ce5528df8ca1890dbfe6426841992d0fb054bb16#256

/-- `AES_SBOX[b]` (G1). -/
def aesSbox (b : Byte) : Byte := aesSboxRom.extractLsb' (2040 - 8 * b.toNat) 8

/-- Multiplication by 2 in GF(2^8) modulo x^8 + x^4 + x^3 + x + 1 (G1). -/
def xtime (s : Byte) : Byte := (s <<< 1) ^^^ (if s.msb then 0x1b else 0x00)

/-- `AES_TE` (G1): the four rows (m2, s, s, m3), (m3, m2, s, s), (s, m3, m2, s), (s, s, m3, m2). -/
def aesTe (c : Fin 4) (b : Byte) : Word :=
  let s := aesSbox b
  let m2 := xtime s
  let m3 := m2 ^^^ s
  match c with
  | 0 => m2 ++ s ++ s ++ m3
  | 1 => m3 ++ m2 ++ s ++ s
  | 2 => s ++ m3 ++ m2 ++ s
  | 3 => s ++ s ++ m3 ++ m2

/-- The MixColumns matrix `M` of G1, row k, column j. -/
def mixColumns (k j : Fin 4) : Nat :=
  ([[2, 3, 1, 1], [1, 2, 3, 1], [1, 1, 2, 3], [3, 1, 1, 2]].getD k.val []).getD j.val 0

/-- The product `m · s` in GF(2^8) for the coefficients 1, 2 and 3 of `M` (G1). -/
def gfMul (m : Nat) (s : Byte) : Byte :=
  (if m % 2 = 1 then s else 0) ^^^ (if m / 2 % 2 = 1 then xtime s else 0)

/-- The named premise `TablesAreAES` (G1, R70): a premise a claim may take, never a fact of CORE. -/
def TablesAreAES (T : Tables) : Prop := T.sbox = aesSbox ∧ T.te = aesTe

/-- `INST_AES` with the round keys `keys` (G1). -/
def instAes (keys : Fin 11 → Block) : Tables := { sbox := aesSbox, te := aesTe, rk := keys }

/-- `INST_FIPS` (G2): key 000102030405060708090a0b0c0d0e0f. -/
def instFips : Tables := instAes <| keysOf
  [0x000102030405060708090a0b0c0d0e0f,
   0xd6aa74fdd2af72fadaa678f1d6ab76fe,
   0xb692cf0b643dbdf1be9bc5006830b3fe,
   0xb6ff744ed2c2c9bf6c590cbf0469bf41,
   0x47f7f7bc95353e03f96c32bcfd058dfd,
   0x3caaa3e8a99f9deb50f3af57adf622aa,
   0x5e390f7df7a69296a7553dc10aa31f6b,
   0x14f9701ae35fe28c440adf4d4ea9c026,
   0x47438735a41c65b9e016baf4aebf7ad2,
   0x549932d1f08557681093ed9cbe2c974e,
   0x13111d7fe3944a17f307a78b4d2b30c5]

/-- `INST_FIPSB` (G2): key 2b7e151628aed2a6abf7158809cf4f3c. -/
def instFipsB : Tables := instAes <| keysOf
  [0x2b7e151628aed2a6abf7158809cf4f3c,
   0xa0fafe1788542cb123a339392a6c7605,
   0xf2c295f27a96b9435935807a7359f67f,
   0x3d80477d4716fe3e1e237e446d7a883b,
   0xef44a541a8525b7fb671253bdb0bad00,
   0xd4d1c6f87c839d87caf2b8bc11f915bc,
   0x6d88a37a110b3efddbf98641ca0093fd,
   0x4e54f70e5f5fc9f384a64fb24ea6dc4f,
   0xead27321b58dbad2312bf5607f8d292f,
   0xac7766f319fadc2128d12941575c006e,
   0xd014f9a8c9ee2589e13f0cc8b6630ca6]

/-- `INST_ZK` (G2): the all-zero key. -/
def instZk : Tables := instAes <| keysOf
  [0x00000000000000000000000000000000,
   0x62636363626363636263636362636363,
   0x9b9898c9f9fbfbaa9b9898c9f9fbfbaa,
   0x90973450696ccffaf2f457330b0fac99,
   0xee06da7b876a1581759e42b27e91ee2b,
   0x7f2e2b88f8443e098dda7cbbf34b9290,
   0xec614b851425758c99ff09376ab49ba7,
   0x217517873550620bacaf6b3cc61bf09b,
   0x0ef903333ba9613897060a04511dfa9f,
   0xb1d4d8e28a7db9da1d7bb3de4c664941,
   0xb4ef5bcb3e92e21123e951cf6f8f188e]

end Sys2Proof.Machine
end

