-- ==== Sys2Proof/Machine/Program.lean ====
section
/-! DEFINITION. Test programs in text form (spec/30_encoding.md R64 to R66): parsing a line, the input vectors a line
stands for, and putting them on the ports, one a cycle. It is not behaviour of CORE (decision D17); what the spec leaves
open about spacing and letter case is in assumption log 12. -/

namespace Sys2Proof.Machine

/-- Why a line of text is rejected. -/
inductive LineReject where
  /-- The line is none of the forms of R64 and R65. -/
  | noSuchLine
  /-- The operand of ENCRYPT is not 32 hexadecimal digits, or the count of WAIT is no decimal number from 1 up. -/
  | badOperand
deriving DecidableEq, Repr

/-- Text after `;` is a comment (R64). -/
def dropComment (text : List Char) : List Char := text.takeWhile (· != ';')

/-- The blank-separated parts of a text; `part` is the part being read, last character first. -/
def partsFrom (part : List Char) : List Char → List (List Char)
  | [] => if part.isEmpty then [] else [part.reverse]
  | c :: rest =>
    if c == ' ' || c == '\t' then
      if part.isEmpty then partsFrom [] rest else part.reverse :: partsFrom [] rest
    else partsFrom (c :: part) rest

/-- A hexadecimal digit, of either case. -/
def hexDigit (c : Char) : Option (Fin 16) :=
  if '0' ≤ c ∧ c ≤ '9' then some (Fin.ofNat 16 (c.toNat - '0'.toNat))
  else if 'a' ≤ c ∧ c ≤ 'f' then some (Fin.ofNat 16 (c.toNat - 'a'.toNat + 10))
  else if 'A' ≤ c ∧ c ≤ 'F' then some (Fin.ofNat 16 (c.toNat - 'A'.toNat + 10))
  else none

/-- The digits of `<hex>`, "optionally prefixed `0x`" (R64). -/
def hexDigits : List Char → Option (List (Fin 16))
  | '0' :: 'x' :: rest => rest.mapM hexDigit
  | text => text.mapM hexDigit

/-- The number `n` of `WAIT n`, decimal (R65). -/
def decimal (text : List Char) : Option Nat :=
  if text.isEmpty || !text.all Char.isDigit then none
  else some (text.foldl (fun n c => 10 * n + (c.toNat - '0'.toNat)) 0)

/-- The line, if it is well formed. -/
def checkedLine (line : Option Line) : Except LineReject Line :=
  match line with
  | none => .error .badOperand
  | some l => if l.wellFormed then .ok l else .error .badOperand

/-- One line of a test program (R64, R65). -/
def parseLine (text : List Char) : Except LineReject Line :=
  match partsFrom [] (dropComment text) with
  | [['R', 'E', 'S', 'E', 'T']] => .ok .reset
  | [['I', 'D', 'L', 'E']] => .ok .idle
  | [['E', 'N', 'C', 'R', 'Y', 'P', 'T'], hex] => checkedLine ((hexDigits hex).map Line.encrypt)
  | [['W', 'A', 'I', 'T'], n] => checkedLine ((decimal n).map Line.wait)
  | _ => .error .noSuchLine

/-- The block of 32 digits read as a 128-bit number, the first digit most significant (R66). -/
def digitsBlock (digits : List (Fin 16)) : Block :=
  BitVec.ofNat 128 (digits.foldl (fun n d => 16 * n + d.val) 0)

/-- The operations of a line, one a cycle (R64, R65). -/
def lineInstrs : Line → List Instr
  | .reset => [.reset]
  | .idle => [.idle]
  | .encrypt digits => [.encrypt (digitsBlock digits)]
  | .wait n => List.replicate n .idle

/-- The 130-bit vectors a line drives, one a cycle (R53, R64). -/
def lineVectors (line : Line) : List CycleVector := (lineInstrs line).map encode

/-- The vectors of a test program, in cycle order (R64), or why one of its lines is rejected. -/
def assemble : List String → Except LineReject (List CycleVector)
  | [] => .ok []
  | text :: rest =>
    match parseLine text.toList, assemble rest with
    | .error why, _ => .error why
    | .ok _, .error why => .error why
    | .ok line, .ok vectors => .ok (lineVectors line ++ vectors)

/-- `s` with the vectors driven on the ports, one a cycle, from the current cycle on. -/
def State.withProgram (s : State) (vectors : List CycleVector) : State :=
  s.withStimulus (vectors.map vectorPorts)

end Sys2Proof.Machine
end

