-- ==== Sys2Proof/Machine/Staged.lean ====
section
/-! DEFINITION. The implementations that spec/10_state.md R30 allows beside the spec's own model: a slot holds an
intermediate stage value from which the result follows, and the later stages are applied as it moves on. It is a second
design, to be compared with the slots of Machine/Ops.lean at the ports (spec/44_operations.md R99); the machine does not
use it (assumption log 13). -/

namespace Sys2Proof.Machine

/-- Stage n of the datapath on the 128 bits of a stage value (R4, R21, R49): whitening is stage 0, main round r stage r,
the final round stage 10. -/
def stageStep (T : Tables) (n : Nat) (x : Block) : Block :=
  if n = 0 then wordsBlock (whiten T x)
  else if n = 10 then finalRound T (blockWords x)
  else wordsBlock (mainRound T (Fin.ofNat 11 n) (blockWords x))

/-- `count` stages from stage `first` on. -/
def stagesFrom (T : Tables) (first : Nat) : Nat → Block → Block
  | 0, x => x
  | count + 1, x => stagesFrom T (first + 1) count (stageStep T first x)

/-- A pipeline register that holds the value after the first `done` of the eleven stages: 1 for `S_0`, r + 1 for `S_r`,
11 for `OUT`. -/
structure StagedSlot where
  done : Nat
  v : Bool
  d : Block
deriving DecidableEq, Repr

/-- The pipeline registers, first to last. -/
structure StagedState where
  q1 : StagedSlot
  later : List StagedSlot
deriving DecidableEq, Repr

/-- The shift: what moves on is taken through the stages that lie between the two registers. -/
def stagedShift (T : Tables) (prev : StagedSlot) : List StagedSlot → List StagedSlot
  | [] => []
  | q :: rest =>
    { q with v := prev.v, d := if prev.v then stagesFrom T prev.done (q.done - prev.done) prev.d else q.d }
      :: stagedShift T q rest

/-- The clock edge of the staged design. -/
def stagedEdge (T : Tables) (i : Instr) (s : StagedState) : StagedState :=
  match i with
  | .reset => { q1 := { s.q1 with v := false }, later := s.later.map fun q => { q with v := false } }
  | .idle => { q1 := { s.q1 with v := false }, later := stagedShift T s.q1 s.later }
  | .encrypt B =>
    { q1 := { s.q1 with v := true, d := stagesFrom T 0 s.q1.done B }, later := stagedShift T s.q1 s.later }

/-- The registers stand in datapath order and the last one holds `OUT` (R25). -/
def StagedState.wf (s : StagedState) : Bool :=
  decide ((s.q1 :: s.later).Pairwise (fun a b => a.done ≤ b.done)) && (s.later.getLastD s.q1).done == 11

/-- The result that follows from what a register holds. -/
def StagedSlot.result (T : Tables) (q : StagedSlot) : Slot :=
  { v := q.v, d := stagesFrom T q.done (11 - q.done) q.d }

/-- The spec's slots for the registers of the staged design. -/
def StagedState.result (T : Tables) (s : StagedState) : State :=
  { q1 := s.q1.result T, later := s.later.map (StagedSlot.result T), stimulus := [] }

/-- `out_valid` and `out_block` of the staged design: its last register. -/
def StagedState.outVector (s : StagedState) : OutputVector :=
  BitVec.ofBool (s.later.getLastD s.q1).v ++ (s.later.getLastD s.q1).d

end Sys2Proof.Machine
end

