-- ==== Sys2Proof/Safety.lean ====
section
/-! DEFINITION. The words that claims about runs use: the host contract, what a stimulus presents, the results a run
shows at the ports, and the invariant of every run after a reset. -/

namespace Sys2Proof.Machine

/-- The host contract on the input values of a cycle, in R112's words: `rst` and `in_valid` are each 0 or 1, and with
`in_valid = 1` every bit of `in_block` is. -/
def HostContract (p : Ports) : Prop :=
  p.rst.isSome ∧ p.inValid.isSome ∧ (p.inValid = some true → p.inBlock.isSome)

/-- The host drives the operations `ops` in the cycles from this one on, one a cycle. -/
def State.Presents (s : State) (ops : List Instr) : Prop :=
  ops.map Except.ok <+: s.stimulus.map decodePorts

/-- No transaction is in flight, as after a RESET (R92, R113). -/
def State.Quiet (s : State) : Prop := ∀ q ∈ s.slots, q.v = false

/-- The clock edges of the operations `ops` on the instance `T`, in order. -/
def edges (T : Tables) (ops : List Instr) (s : State) : State := ops.foldl (fun s i => edge T i s) s

/-- The result an operation produces on the instance `T`, if it is an ENCRYPT. -/
def resultOf (T : Tables) : Instr → Option Block
  | .encrypt B => some (enc T B)
  | .reset => none
  | .idle => none

/-- What a host captures in the next n cycles when it takes `out_block` in every cycle with `out_valid = 1` (R120). -/
def results : Nat → State → List Block
  | 0, _ => []
  | n + 1, s =>
    match step s with
    | .next t => (if t.outValid then [t.outBlock] else []) ++ results n t
    | .fault _ => []
    | .refused _ => []

/-- Every slot that is marked valid holds the result of some block (R24). -/
def State.HoldsResults (s : State) : Prop := ∀ q ∈ s.slots, q.v = true → ∃ B, q.d = enc Config.tables B

/-- The invariant of CORE after a reset: it has `LATENCY` slots, and what they show as valid is a result. -/
def State.Inv (s : State) : Prop := s.latency = Config.latency ∧ s.HoldsResults

end Sys2Proof.Machine
end

