-- ==== Sys2Proof/Certificates/Slice0/Obligations.lean ====
section
/-! DEFINITION. The statements for the provers, from the numbered rules of spec/, in the rules' order: encoding and ports,
the three operations, runs in time, the datapath, whole-machine rules. -/

open Sys2Proof Sys2Proof.Machine

/-! ### Encoding and ports (spec/30_encoding.md) -/

/-- R53: the cycle vector is the number `rst·2^129 + in_valid·2^128 + in_block`, and its three fields are the ports. -/
def Obligations.CycleVectorPacksThePorts : Prop :=
  ∀ (rst v : Bool) (B : Block),
    (packVector rst v B).toNat = rst.toNat * 2 ^ 129 + v.toNat * 2 ^ 128 + B.toNat ∧
    vectorRst (packVector rst v B) = rst ∧ vectorInValid (packVector rst v B) = v ∧
    vectorInBlock (packVector rst v B) = B

/-- R55, R56, R57: `rst` selects RESET whatever the other ports carry, then `in_valid` selects between IDLE, which ignores
`in_block`, and ENCRYPT of `in_block`. -/
def Obligations.PortBitsSelectTheOperation : Prop :=
  (∀ v B, decode (packVector true v B) = .reset) ∧
  (∀ B, decode (packVector false false B) = .idle) ∧
  (∀ B, decode (packVector false true B) = .encrypt B)

/-- R62: every vector is selected by exactly one row of the opcode table (its match and mask), and the decoder reads that
row's operation; every block is an operand, and the operand is `in_block`. -/
def Obligations.DecodingIsTotalAndFollowsTheOpcodeTable : Prop :=
  (∀ I : CycleVector, ∃ row ∈ opcodeTable, (∀ row' ∈ opcodeTable, row'.selects I = true ↔ row' = row) ∧
    (decode I).mnemonic = row.mnemonic ∧ (∀ B, decode I = .encrypt B → B = vectorInBlock I)) ∧
  (∀ B, ∃ I, decode I = .encrypt B)

/-- Decode and encode agree: decoding the encoding of any operation, with any operand, gives it back; and a vector differs
from the encoding of what it decodes to only in bits that the operation ignores. -/
def Obligations.DecodeInvertsEncode : Prop :=
  (∀ i : Instr, i.wellFormed = true ∧ decode (encode i) = i) ∧
  (∀ I J : CycleVector, decode I = decode J ↔
    (vectorRst I = true ∧ vectorRst J = true) ∨
    (vectorRst I = false ∧ vectorRst J = false ∧ vectorInValid I = false ∧ vectorInValid J = false) ∨
    (vectorRst I = false ∧ vectorInValid I = true ∧ I = J))

/-- Words written out from R53 and the opcode table: each operation's vector, with the ignored bits at 0 and at 1. -/
def Obligations.WrittenWordsDecode : Prop :=
  decode 0x200000000000000000000000000000000 = .reset ∧
  decode 0x3ffffffffffffffffffffffffffffffff = .reset ∧
  decode 0x000000000000000000000000000000000 = .idle ∧
  decode 0x0ffffffffffffffffffffffffffffffff = .idle ∧
  decode 0x100112233445566778899aabbccddeeff = .encrypt 0x00112233445566778899aabbccddeeff

/-- R58: the operand is `in_block`; its byte k is bits [127-8k:120-8k], and word i is its four bytes, which are bits
[127-32i:96-32i]. -/
def Obligations.OperandBytesStandMostSignificantFirst : Prop :=
  (∀ inBlock : Block, decode (packVector false true inBlock) = .encrypt inBlock) ∧
  (∀ (B : Block) (k : Fin 16) (n : Nat), n < 8 → (blockByte B k).getLsbD n = B.getLsbD (120 - 8 * k.val + n)) ∧
  (∀ (B : Block) (i : Fin 4),
    word B i = blockByte B (bytePos i 0) ++ blockByte B (bytePos i 1) ++ blockByte B (bytePos i 2) ++ blockByte B (bytePos i 3)) ∧
  (∀ (B : Block) (i : Fin 4) (n : Nat), n < 32 → (word B i).getLsbD n = B.getLsbD (96 - 32 * i.val + n))

/-- R54, R59 and R25: the output vector carries `Q[LATENCY].v` in bit 128 and byte k of `Q[LATENCY].d` in bits
[127-8k:120-8k], and the inputs have no part in it. -/
def Obligations.OutputVectorShowsTheLastSlot : Prop :=
  ∀ s : State, ∃ q, s.slot s.latency = some q ∧ s.outVector.getLsbD 128 = q.v ∧
    (∀ k : Fin 16, s.outVector.extractLsb' (120 - 8 * k.val) 8 = blockByte q.d k) ∧
    s.outValid = q.v ∧ s.outBlock = q.d ∧
    (∀ inputs, (s.withStimulus inputs).outVector = s.outVector)

/-- R12, and R60 for the place of that byte in the 128-bit stage value: the source byte for output word i at column
position j is byte j of working word (i + j) mod 4. -/
def Obligations.LookupIndexIsTheStaggeredByte : Prop :=
  ∀ (t : Words) (i j : Fin 4) (n : Nat), n < 8 →
    src t i j = wordByte (t.get (i + j)) j ∧
    (src t i j).getLsbD n = (wordsBlock t).getLsbD (120 - 32 * ((i.val + j.val) % 4) - 8 * j.val + n)

/-- R112: a driven cycle is refused exactly when its port values break the host contract, and otherwise the step goes on. -/
def Obligations.StepRefusesExactlyBrokenContracts : Prop :=
  ∀ (s : State) (p : Ports) (rest : List Ports), s.stimulus = p :: rest →
    ((∃ t, step s = .next t) ↔ HostContract p) ∧
    ((∃ why, step s = .refused (.inputContract why)) ↔ ¬ HostContract p)

/-- The model's choice (assumption log 2): with nothing driven the step is refused by a name of its own. -/
def Obligations.StepStopsWhenNothingIsDriven : Prop :=
  ∀ s : State, s.stimulus = [] → step s = .refused .stimulusExhausted

/-- A step runs the operation that this cycle's ports select, with this cycle's values taken off the stimulus. -/
def Obligations.StepRunsTheSelectedOperation : Prop :=
  ∀ (s : State) (p : Ports) (rest : List Ports) (i : Instr), s.stimulus = p :: rest → decodePorts p = .ok i →
    step s = exec i (s.withStimulus rest)

/-- R66: in the 32 digits of a line, the first two are `B[0]` and the last two `B[15]`. -/
def Obligations.HexDigitsAreInByteOrder : Prop :=
  ∀ (digits : List (Fin 16)) (k : Fin 16), (Line.encrypt digits).wellFormed = true →
    ∃ hi lo : Fin 16, digits[2 * k.val]? = some hi ∧ digits[2 * k.val + 1]? = some lo ∧
      (blockByte (digitsBlock digits) k).toNat = 16 * hi.val + lo.val

/-- R64, R65: a RESET line drives `rst = 1` with the other ports 0, an IDLE line drives all ports 0, an ENCRYPT line drives
`in_valid = 1` with its digits' block on `in_block`, and `WAIT n` is n IDLE lines; the vectors decode to the line's operations,
and a program put on the ports presents its lines' operations in order, one a cycle. -/
def Obligations.ProgramLinesDriveTheirOperations : Prop :=
  lineVectors .reset = [packVector true false 0] ∧
  lineVectors .idle = [packVector false false 0] ∧
  (∀ digits, lineVectors (.encrypt digits) = [packVector false true (digitsBlock digits)]) ∧
  (∀ n, lineVectors (.wait n) = List.replicate n (packVector false false 0)) ∧
  (∀ line : Line, (lineVectors line).map decode = lineInstrs line) ∧
  (∀ n, lineVectors (.wait n) = (List.replicate n Line.idle).flatMap lineVectors) ∧
  (∀ (s : State) (lines : List Line),
    (s.withProgram (lines.flatMap lineVectors)).Presents (lines.flatMap lineInstrs))

/-! ### The three operations (spec/44_operations.md section 2) -/

/-- R92, R117: a RESET, whatever `in_valid` and `in_block` are, clears every valid bit at one edge, whatever LATENCY is, and
leaves every data register, the inputs and the number of slots alone; after it `out_valid = 0`, and a second RESET has no
further effect. -/
def Obligations.ResetClearsEveryValidBit : Prop :=
  (∀ v B, decode (packVector true v B) = .reset) ∧
  ∀ s : State, ∃ t, exec .reset s = .next t ∧ t.latency = s.latency ∧ t.stimulus = s.stimulus ∧ t.outValid = false ∧
    (∀ k q, s.slot k = some q → t.slot k = some { v := false, d := q.d }) ∧ exec .reset t = .next t

/-- R91 (with the shift of R93): an IDLE, whatever `in_block` is, clears `Q[1].v`, leaves `Q[1].d` alone and shifts the other
slots; where no result moves into the last slot, `out_block` is held. -/
def Obligations.IdleInvalidatesSlotOneAndShifts : Prop :=
  (∀ B, decode (packVector false false B) = .idle) ∧
  ∀ s : State, ∃ t, exec .idle s = .next t ∧ t.latency = s.latency ∧ t.stimulus = s.stimulus ∧
    (t.outValid = false → t.outBlock = s.outBlock) ∧
    t.slot 1 = some { v := false, d := s.q1.d } ∧
    ∀ k p q, 2 ≤ k → s.slot (k - 1) = some p → s.slot k = some q →
      t.slot k = some { v := p.v, d := if p.v = true then p.d else q.d }

/-- R90 (with the shift of R93): an ENCRYPT of B puts `(1, ENC(B))` into slot 1 and shifts the other slots. -/
def Obligations.EncryptLoadsItsResultAndShifts : Prop :=
  ∀ (B : Block) (s : State), ∃ t, exec (.encrypt B) s = .next t ∧ t.latency = s.latency ∧ t.stimulus = s.stimulus ∧
    t.slot 1 = some { v := true, d := enc Config.tables B } ∧
    ∀ k p q, 2 ≤ k → s.slot (k - 1) = some p → s.slot k = some q →
      t.slot k = some { v := p.v, d := if p.v = true then p.d else q.d }

/-- The frame of all three operations: the number of slots and the inputs stay; a data register changes only where a
result enters it, so where its valid bit ends at 0 it is unchanged, and a RESET changes none. -/
def Obligations.DataChangesOnlyWhereAResultEnters : Prop :=
  ∀ (i : Instr) (s t : State), exec i s = .next t →
    t.latency = s.latency ∧ t.stimulus = s.stimulus ∧
    ∀ k p q, s.slot k = some p → t.slot k = some q → (q.v = false ∨ i = .reset) → q.d = p.d

/-- R94: `out_block` changes only at an edge where a result moves into `Q[L]`; in every other step it keeps its value. -/
def Obligations.OutBlockHoldsUntilTheNextResult : Prop :=
  ∀ s t : State, step s = .next t → t.outValid = false → t.outBlock = s.outBlock

/-- R104, R116: with `rst = 1` and `in_valid = 1` in one cycle the cycle is a RESET and the block is dropped: the step is the
one that `in_valid = 0` with any block would give. -/
def Obligations.ResetWinsOverInValid : Prop :=
  ∀ (s : State) (B B' : Block) (rest : List Ports),
    step (s.withStimulus ({ rst := some true, inValid := some true, inBlock := some B } :: rest))
        = exec .reset (s.withStimulus rest) ∧
    step (s.withStimulus ({ rst := some true, inValid := some true, inBlock := some B } :: rest))
        = step (s.withStimulus ({ rst := some true, inValid := some false, inBlock := some B' } :: rest))

/-- R32: the values after a reset cycle. The data values are the model's free values (assumption log 7): this says only that
the reset cycle left them as they were at power-up. -/
def Obligations.ResetStateHasItsStatedValues : Prop :=
  State.reset.latency = Config.latency ∧ 1 ≤ Config.latency ∧ State.reset.outValid = false ∧
  (∀ k, 1 ≤ k → k ≤ Config.latency →
    ∃ p q, State.powerUp.slot k = some p ∧ State.reset.slot k = some q ∧ q.v = false ∧ q.d = p.d)

/-- R113, R117, R118 from power-up: one RESET cycle, whatever the power-up values are, gives the reset state. -/
def Obligations.OneResetCycleBootsFromPowerUp : Prop :=
  ∀ (p : Ports) (rest : List Ports), HostContract p → p.rst = some true →
    step (State.powerUp.withStimulus (p :: rest)) = .next (State.reset.withStimulus rest)

/-! ### Runs in time (spec/44_operations.md R95, spec/70_reset_and_hazards.md) -/

/-- R100: nothing makes CORE fault, and while the host keeps its contract nothing stops it: from every state every driven
cycle is a step, for every table content (the instance's tables are free constants). -/
def Obligations.ContractStimulusAlwaysRuns : Prop :=
  (∀ (s : State) (r : Fault), step s ≠ .fault r) ∧
  (∀ (n : Nat) (s : State), n ≤ s.stimulus.length → (∀ p ∈ s.stimulus, HostContract p) →
    ∃ t, Host.Core.run Sys2Proof.core n s = .next t)

/-- A run over presented operations is their clock edges in order, on this instance's tables. -/
def Obligations.RunIsTheEdgesOfItsOperations : Prop :=
  ∀ (ops : List Instr) (s : State), s.Presents ops →
    Host.Core.run Sys2Proof.core ops.length s
      = .next ((edges Config.tables ops s).withStimulus (s.stimulus.drop ops.length))

/-- R95. Both directions, from every state (so no earlier RESET is needed once cycle n is in the run): in cycle n + L,
`out_valid = 1` exactly when cycle n was an ENCRYPT and no cycle from n to n + L - 1 was a RESET, and then `out_block` is its
result. And with nothing in flight and no RESET, what comes out is one result for each ENCRYPT, in order. -/
def Obligations.ResultsAppearExactlyLatencyCyclesLater : Prop :=
  (∀ (s : State) (first : Instr) (others : List Instr), others.length + 1 = s.latency → s.Presents (first :: others) →
    ∃ t, Host.Core.run Sys2Proof.core s.latency s = .next t ∧
      (t.outValid = true ↔ (∃ B, first = .encrypt B) ∧ Instr.reset ∉ others) ∧
      (∀ B, first = .encrypt B → Instr.reset ∉ others → t.outBlock = enc Config.tables B)) ∧
  (∀ (s : State) (ops : List Instr), s.Quiet → Instr.reset ∉ ops →
    s.Presents (ops ++ List.replicate (s.latency - 1) Instr.idle) →
    results (ops.length + (s.latency - 1)) s = ops.filterMap (resultOf Config.tables))

/-- R121 with R117 and R95: whatever is in flight when a RESET comes, what the host captures from there on
is the list of the results of the ENCRYPTs after it, each once and in order, whatever LATENCY is. -/
def Obligations.ResultsLeaveInOrderAfterReset : Prop :=
  ∀ (s : State) (ops : List Instr), Instr.reset ∉ ops →
    s.Presents (Instr.reset :: ops ++ List.replicate (s.latency - 1) Instr.idle) →
    results (1 + ops.length + (s.latency - 1)) s = ops.filterMap (resultOf Config.tables)

/-- R99: two machines of any two latencies that start with nothing in flight and get the same operations put out the same
list of results. -/
def Obligations.LatencyDoesNotChangeTheResults : Prop :=
  ∀ (s s' : State) (ops : List Instr), s.Quiet → s'.Quiet → Instr.reset ∉ ops →
    s.Presents (ops ++ List.replicate (s.latency - 1) Instr.idle) →
    s'.Presents (ops ++ List.replicate (s'.latency - 1) Instr.idle) →
    results (ops.length + (s.latency - 1)) s = results (ops.length + (s'.latency - 1)) s'

/-- R119: after RESET in cycle c and ENCRYPT B in cycle c + 1, with no further RESET, `out_valid = 0` in the cycles c + 1 to
c + LATENCY and the result is out in cycle c + 1 + LATENCY. -/
def Obligations.FirstResultAfterReset : Prop :=
  ∀ (s : State) (B : Block) (others : List Instr), others.length + 1 = s.latency → Instr.reset ∉ others →
    s.Presents (.reset :: .encrypt B :: others) →
    (∀ j, j < s.latency → ∃ t, Host.Core.run Sys2Proof.core (j + 1) s = .next t ∧ t.outValid = false) ∧
    (∃ t, Host.Core.run Sys2Proof.core (s.latency + 1) s = .next t ∧ t.outValid = true ∧
      t.outBlock = enc Config.tables B)

/-- R121: a RESET discards what is in flight and the block presented with it: until a later ENCRYPT, no cycle shows
`out_valid = 1`. -/
def Obligations.ResetDiscardsWorkInFlight : Prop :=
  ∀ (s : State) (ops : List Instr) (n : Nat), (∀ B, Instr.encrypt B ∉ ops) → n ≤ ops.length →
    s.Presents (.reset :: ops) →
    ∃ t, Host.Core.run Sys2Proof.core (n + 1) s = .next t ∧ t.outValid = false

/-- R125: with one ENCRYPT in every cycle, LATENCY transactions are in flight at once: slot k holds the result of the block
presented k cycles ago. -/
def Obligations.OneBlockACycleFillsEverySlot : Prop :=
  ∀ (s : State) (blocks : List Block), blocks.length = s.latency → s.Presents (blocks.map Instr.encrypt) →
    ∃ t, Host.Core.run Sys2Proof.core s.latency s = .next t ∧
      ∀ k, 1 ≤ k → k ≤ s.latency →
        ∃ B, blocks[s.latency - k]? = some B ∧ t.slot k = some { v := true, d := enc Config.tables B }

/-- R126, R124: the valid bits of every slot, and so the cycles in which results appear, do not depend on the blocks, on the
data held, or on the tables and keys: two instances given operations of the same names stay valid alike. -/
def Obligations.TimingIsIndependentOfDataAndConstants : Prop :=
  ∀ (T T' : Tables) (ops ops' : List Instr) (s s' : State), s.valids = s'.valids →
    ops.map Instr.mnemonic = ops'.map Instr.mnemonic →
    (edges T ops s).valids = (edges T' ops' s').valids ∧ (edges T ops s).outValid = (edges T' ops' s').outValid

/-- R97: an ENCRYPT of one block has one result, after any two histories, in any two states; and it depends on nothing of the
instance but the three parameters (R89, R109). -/
def Obligations.ResultDependsOnTheBlockAlone : Prop :=
  (∀ (B : Block) (s s' : State), ∃ t t', exec (.encrypt B) s = .next t ∧ exec (.encrypt B) s' = .next t' ∧
    t.slot 1 = t'.slot 1) ∧
  (∀ (T T' : Tables) (B : Block), (∀ b, T.sbox b = T'.sbox b) → (∀ c b, T.te c b = T'.te c b) →
    (∀ r, T.rk r = T'.rk r) → enc T B = enc T' B)

/-- R30, R99: a pipeline that holds intermediate stage values in its registers, cut at any stages, shows the same outputs
in every cycle, for every instance and every sequence of operations. -/
def Obligations.StagedPipelineIsIndistinguishableAtThePorts : Prop :=
  ∀ (T : Tables) (s : StagedState) (ops : List Instr), s.wf = true →
    (ops.foldl (fun s i => stagedEdge T i s) s).outVector = (edges T ops (s.result T)).outVector

/-- The invariant of every run holds after reset: CORE has LATENCY slots and shows nothing but results as valid. -/
def Obligations.InvariantHoldsAtReset : Prop := State.reset.Inv

/-- Every step keeps the invariant, from every state that meets it. -/
def Obligations.EveryStepKeepsTheInvariant : Prop :=
  ∀ s t : State, s.Inv → step s = .next t → t.Inv

/-- R98: what `out_block` shows as a result is the whole result of one block, in every cycle of every run from a state that
meets the invariant. -/
def Obligations.NoPartialResultIsEverShown : Prop :=
  ∀ (n : Nat) (s t : State), s.Inv → Host.Core.run Sys2Proof.core n s = .next t → t.outValid = true →
    ∃ B, t.outBlock = enc Config.tables B

/-! ### The datapath (spec/40_lookup.md to spec/44_operations.md) -/

/-- R89: ENC is the whitening, nine main rounds with round keys 1 to 9 in this order, and the final round. -/
def Obligations.EncryptionIsElevenStagesInOrder : Prop :=
  ∀ (T : Tables) (B : Block),
    stage T B 0 = whiten T B ∧
    (∀ r : Fin 9, stage T B (r.val + 1) = mainRound T ⟨r.val + 1, by omega⟩ (stage T B r.val)) ∧
    enc T B = finalRound T (stage T B 9)

/-- R72, R73: whitening XORs word i of the block with word i of round key 0, which is the XOR of every byte k with byte k of
the key; it is its own inverse, gives zero on the key itself, and gives the block under a zero key. -/
def Obligations.WhiteningXorsRoundKeyZero : Prop :=
  ∀ (T : Tables) (B : Block),
    (∀ i : Fin 4, (whiten T B).get i = word B i ^^^ word (T.rk 0) i) ∧
    (∀ k : Fin 16, blockByte (wordsBlock (whiten T B)) k = blockByte B k ^^^ blockByte (T.rk 0) k) ∧
    wordsBlock (whiten T (wordsBlock (whiten T B))) = B ∧
    (B = T.rk 0 → wordsBlock (whiten T B) = 0) ∧
    (T.rk 0 = 0 → wordsBlock (whiten T B) = B)

/-- R76, R78: each new word is the XOR of the four lookups and the word of the round key, all read from the words before the
round; with zero tables the round is the key alone, and with a zero key it is the lookups alone. -/
def Obligations.MainRoundXorsFourLookupsAndTheKey : Prop :=
  ∀ (T : Tables) (r : Fin 11) (t : Words),
    (∀ i : Fin 4, (mainRound T r t).get i =
      T.te 0 (wordByte (t.get i) 0) ^^^ T.te 1 (wordByte (t.get (i + 1)) 1) ^^^ T.te 2 (wordByte (t.get (i + 2)) 2)
        ^^^ T.te 3 (wordByte (t.get (i + 3)) 3) ^^^ word (T.rk r) i) ∧
    ((∀ c b, T.te c b = 0) → wordsBlock (mainRound T r t) = T.rk r) ∧
    (T.rk r = 0 → ∀ i : Fin 4, (mainRound T r t).get i =
      T.te 0 (wordByte (t.get i) 0) ^^^ T.te 1 (wordByte (t.get (i + 1)) 1) ^^^ T.te 2 (wordByte (t.get (i + 2)) 2)
        ^^^ T.te 3 (wordByte (t.get (i + 3)) 3))

/-- R79: each output byte, and which output word each source byte feeds: changing byte j of word w changes at most output
word (w - j) mod 4. -/
def Obligations.MainRoundByteLanes : Prop :=
  (∀ (T : Tables) (r : Fin 11) (t : Words) (i k : Fin 4),
    wordByte ((mainRound T r t).get i) k =
      blockByte (T.rk r) (bytePos i k) ^^^ wordByte (T.te 0 (wordByte (t.get i) 0)) k
        ^^^ wordByte (T.te 1 (wordByte (t.get (i + 1)) 1)) k ^^^ wordByte (T.te 2 (wordByte (t.get (i + 2)) 2)) k
        ^^^ wordByte (T.te 3 (wordByte (t.get (i + 3)) 3)) k) ∧
  (∀ (T : Tables) (r : Fin 11) (t t' : Words) (w j i : Fin 4),
    (∀ w' j', (w', j') ≠ (w, j) → wordByte (t.get w') j' = wordByte (t'.get w') j') → i ≠ w - j →
    (mainRound T r t).get i = (mainRound T r t').get i)

/-- R75, R85 and W1: the source positions of the stagger, as block-byte positions of the previous stage value. -/
def Obligations.StaggerTableCells : Prop :=
  ∀ (t : Words) (i j : Fin 4), ∃ k : Fin 16,
    ([0, 5, 10, 15, 4, 9, 14, 3, 8, 13, 2, 7, 12, 1, 6, 11] : List (Fin 16))[(bytePos i j).val]? = some k ∧
    src t i j = blockByte (wordsBlock t) k

/-- R81: a main round is the byte permutation P, then a lookup in place, then the key. -/
def Obligations.MainRoundAsExplicitPermutation : Prop :=
  ∀ (T : Tables) (r : Fin 11) (S P : Words), (∀ i j, wordByte (P.get i) j = wordByte (S.get (i + j)) j) →
    ∀ i, (mainRound T r S).get i =
      T.te 0 (wordByte (P.get i) 0) ^^^ T.te 1 (wordByte (P.get i) 1) ^^^ T.te 2 (wordByte (P.get i) 2)
        ^^^ T.te 3 (wordByte (P.get i) 3) ^^^ roundKeyWord T r i

/-- R96: the order in which the five terms of a main-round output word are XORed does not matter. -/
def Obligations.RoundTermsMayBeXoredInAnyOrder : Prop :=
  ∀ (T : Tables) (r : Fin 11) (t : Words) (i : Fin 4) (terms : List Word),
    terms.Perm [teLookup T 0 (src t i 0), teLookup T 1 (src t i 1), teLookup T 2 (src t i 2), teLookup T 3 (src t i 3),
      roundKeyWord T r i] →
    terms.foldl (· ^^^ ·) 0 = (mainRound T r t).get i

/-- R83, R86: each output byte is the SBox of one staggered byte, with round key 10's byte of the OUTPUT position; with the
identity SBox and a zero key the round only moves bytes. -/
def Obligations.FinalRoundSubstitutesAndXorsBytewise : Prop :=
  ∀ (T : Tables) (t : Words) (i j : Fin 4),
    blockByte (finalRound T t) (bytePos i j) =
      T.sbox (wordByte (t.get (i + j)) j) ^^^ blockByte (T.rk 10) (bytePos i j) ∧
    ((∀ b, T.sbox b = b) → T.rk 10 = 0 → blockByte (finalRound T t) (bytePos i j) = wordByte (t.get (i + j)) j)

/-- R87, and R85 read the other way: an output byte depends on its own byte of round key 10 and no other; source byte 4w + j
of `S_9` reaches output byte 4((w - j) mod 4) + j and no other; with an injective SBox a changed source byte does change
that byte. -/
def Obligations.FinalRoundDoesNotDiffuse : Prop :=
  (∀ (T T' : Tables) (t : Words) (k : Fin 16), (∀ b, T.sbox b = T'.sbox b) →
    blockByte (T.rk 10) k = blockByte (T'.rk 10) k → blockByte (finalRound T t) k = blockByte (finalRound T' t) k) ∧
  ∀ (T : Tables) (t t' : Words) (w j : Fin 4),
    (∀ w' j', (w', j') ≠ (w, j) → wordByte (t.get w') j' = wordByte (t'.get w') j') →
    (∀ k, k ≠ bytePos (w - j) j → blockByte (finalRound T t) k = blockByte (finalRound T t') k) ∧
    ((∀ a b, T.sbox a = T.sbox b → a = b) → wordByte (t.get w) j ≠ wordByte (t'.get w) j →
      blockByte (finalRound T t) (bytePos (w - j) j) ≠ blockByte (finalRound T t') (bytePos (w - j) j))

/-- R74, R77, R82: which constants each stage reads: whitening only round key 0; main round r only the combined tables and
round key r; the final round only the SBox and round key 10. -/
def Obligations.EachStageReadsItsOwnConstants : Prop :=
  ∀ (T T' : Tables) (B : Block) (t : Words) (r : Fin 11),
    (T.rk 0 = T'.rk 0 → whiten T B = whiten T' B) ∧
    ((∀ c b, T.te c b = T'.te c b) → T.rk r = T'.rk r → mainRound T r t = mainRound T' r t) ∧
    ((∀ b, T.sbox b = T'.sbox b) → T.rk 10 = T'.rk 10 → finalRound T t = finalRound T' t)

/-- R45, R49: the bus (128-bit), word and byte views of a value, and the 32-bit and byte views of a word, name the same bits;
XOR is the same in each of them; and whitening, every main round, every stage value, the final round and ENC give the same
result in the word view and in the byte view. -/
def Obligations.ViewsAgreeOnEveryByte : Prop :=
  (∀ (B : Block) (i j : Fin 4), blockByte B (bytePos i j) = wordByte (word B i) j) ∧
  (∀ B : Block, wordsBlock (blockWords B) = B) ∧ (∀ t : Words, blockWords (wordsBlock t) = t) ∧
  (∀ (A B : Block) (i : Fin 4), word (A ^^^ B) i = word A i ^^^ word B i) ∧
  (∀ (A B : Block) (k : Fin 16), blockByte (A ^^^ B) k = blockByte A k ^^^ blockByte B k) ∧
  (∀ (a b : Word) (j : Fin 4), wordByte (a ^^^ b) j = wordByte a j ^^^ wordByte b j) ∧
  (∀ A B : Block, (∀ k, blockByte A k = blockByte B k) → A = B) ∧
  (∀ w : Word, wordOfBytes (wordByte w) = w) ∧ (∀ (f : Fin 4 → Byte) (j : Fin 4), wordByte (wordOfBytes f) j = f j) ∧
  (∀ (B : Block) (k : Fin 16), (blockBytes B).get k = blockByte B k) ∧
  (∀ B : Block, bytesBlock (blockBytes B) = B) ∧ (∀ b : Bytes, blockBytes (bytesBlock b) = b) ∧
  (∀ (t : Words) (i j : Fin 4), (wordsBytes t).get (bytePos i j) = wordByte (t.get i) j) ∧
  (∀ (T : Tables) (B : Block), whitenBytes T (blockBytes B) = wordsBytes (whiten T B)) ∧
  (∀ (T : Tables) (r : Fin 11) (t : Words), mainRoundBytes T r (wordsBytes t) = wordsBytes (mainRound T r t)) ∧
  (∀ (T : Tables) (t : Words), finalRoundBytes T (wordsBytes t) = blockBytes (finalRound T t)) ∧
  (∀ (T : Tables) (B : Block) (r : Nat), stageBytes T (blockBytes B) r = wordsBytes (stage T B r)) ∧
  (∀ (T : Tables) (B : Block), encBytes T (blockBytes B) = blockBytes (enc T B))

/-- T1 with R80, R81: under INST_SHIFT whitening changes nothing, and every main round and the final round are the stagger
permutation, so ENC is that permutation twice; it has order 4, so ENC undoes itself. -/
def Obligations.ShiftInstanceIsThePermutationTwice : Prop :=
  ∀ (B : Block),
    wordsBlock (whiten instShift B) = B ∧
    (∀ (r : Fin 11) (i j : Fin 4),
      blockByte (wordsBlock (mainRound instShift r (blockWords B))) (bytePos i j) = blockByte B (bytePos (i + j) j)) ∧
    (∀ i j : Fin 4, blockByte (finalRound instShift (blockWords B)) (bytePos i j) = blockByte B (bytePos (i + j) j)) ∧
    (∀ i j : Fin 4, blockByte (enc instShift B) (bytePos i j) = blockByte B (bytePos (i + j + j) j)) ∧
    enc instShift (enc instShift B) = B

/-- T2, W2: under INST_XOR every stage value from S_1 on is the round key alone, and ENC is constant. -/
def Obligations.XorInstanceShowsOnlyRoundKeys : Prop :=
  ∀ (B : Block) (r : Fin 9) (k : Fin 16),
    blockByte (wordsBlock (stage instXor B (r.val + 1))) k = BitVec.ofNat 8 (r.val + 1) ∧ blockByte (enc instXor B) k = 3

/-- G1, under the named premise TablesAreAES (no fact of CORE, R70): a main round multiplies the column of substituted bytes
by the MixColumns matrix. -/
def Obligations.AesTablesFuseSubstitutionAndMixColumns : Prop :=
  ∀ (T : Tables) (r : Fin 11) (t : Words) (i k : Fin 4), TablesAreAES T →
    wordByte ((mainRound T r t).get i) k =
      gfMul (mixColumns k 0) (T.sbox (src t i 0)) ^^^ gfMul (mixColumns k 1) (T.sbox (src t i 1))
        ^^^ gfMul (mixColumns k 2) (T.sbox (src t i 2)) ^^^ gfMul (mixColumns k 3) (T.sbox (src t i 3))
        ^^^ blockByte (T.rk r) (bytePos i k)
end

