-- ==== Sys2Proof/Laws/State.lean ====
section
/-! SUPPORT. One lemma per field per update, each true by definition, so that no later proof unfolds a record update. -/

namespace Sys2Proof.Machine

@[simp] theorem Slot.invalidate_v (q : Slot) : q.invalidate.v = false := rfl
@[simp] theorem Slot.invalidate_d (q : Slot) : q.invalidate.d = q.d := rfl
@[simp] theorem Slot.shiftIn_v (q prev : Slot) : (q.shiftIn prev).v = prev.v := rfl
@[simp] theorem Slot.shiftIn_d (q prev : Slot) : (q.shiftIn prev).d = if prev.v then prev.d else q.d := rfl

@[simp] theorem advance_q1 (s : State) (q : Slot) : (s.advance q).q1 = q := rfl
@[simp] theorem advance_later (s : State) (q : Slot) : (s.advance q).later = shiftSlots s.q1 s.later := rfl
@[simp] theorem advance_stimulus (s : State) (q : Slot) : (s.advance q).stimulus = s.stimulus := rfl

@[simp] theorem withStimulus_q1 (s : State) (ps : List Ports) : (s.withStimulus ps).q1 = s.q1 := rfl
@[simp] theorem withStimulus_later (s : State) (ps : List Ports) : (s.withStimulus ps).later = s.later := rfl
@[simp] theorem withStimulus_stimulus (s : State) (ps : List Ports) : (s.withStimulus ps).stimulus = ps := rfl

@[simp] theorem encryptEdge_q1 (T : Tables) (B : Block) (s : State) :
    (encryptEdge T B s).q1 = { v := true, d := enc T B } := rfl
@[simp] theorem encryptEdge_later (T : Tables) (B : Block) (s : State) :
    (encryptEdge T B s).later = shiftSlots s.q1 s.later := rfl
@[simp] theorem encryptEdge_stimulus (T : Tables) (B : Block) (s : State) :
    (encryptEdge T B s).stimulus = s.stimulus := rfl

@[simp] theorem idleEdge_q1 (s : State) : (idleEdge s).q1 = s.q1.invalidate := rfl
@[simp] theorem idleEdge_later (s : State) : (idleEdge s).later = shiftSlots s.q1 s.later := rfl
@[simp] theorem idleEdge_stimulus (s : State) : (idleEdge s).stimulus = s.stimulus := rfl

@[simp] theorem resetEdge_q1 (s : State) : (resetEdge s).q1 = s.q1.invalidate := rfl
@[simp] theorem resetEdge_later (s : State) : (resetEdge s).later = s.later.map Slot.invalidate := rfl
@[simp] theorem resetEdge_stimulus (s : State) : (resetEdge s).stimulus = s.stimulus := rfl

@[simp] theorem edge_reset (T : Tables) (s : State) : edge T .reset s = resetEdge s := rfl
@[simp] theorem edge_idle (T : Tables) (s : State) : edge T .idle s = idleEdge s := rfl
@[simp] theorem edge_encrypt (T : Tables) (B : Block) (s : State) : edge T (.encrypt B) s = encryptEdge T B s := rfl

@[simp] theorem withFetchWord_q1 (s : State) (n w : Nat) : (s.withFetchWord n w).q1 = s.q1 := rfl
@[simp] theorem withFetchWord_later (s : State) (n w : Nat) : (s.withFetchWord n w).later = s.later := rfl
@[simp] theorem withFetchWord_stimulus (s : State) (n w : Nat) :
    (s.withFetchWord n w).stimulus = vectorPorts (tableVector n w) :: s.stimulus.tail := rfl

@[simp] theorem withProgram_q1 (s : State) (vs : List CycleVector) : (s.withProgram vs).q1 = s.q1 := rfl
@[simp] theorem withProgram_later (s : State) (vs : List CycleVector) : (s.withProgram vs).later = s.later := rfl
@[simp] theorem withProgram_stimulus (s : State) (vs : List CycleVector) :
    (s.withProgram vs).stimulus = vs.map vectorPorts := rfl

end Sys2Proof.Machine
end

