-- ==== Sys2Proof/Laws/Slots.lean ====
section
/-! SUPPORT. Everything the slot operations can do (spec/44_operations.md R90 to R95): the slot-by-slot form, and the
transactions in flight, oldest first, which is how results travel in time. -/

namespace Sys2Proof.Machine

/-! ### Slot by slot -/

@[simp] theorem length_shiftSlots (prev : Slot) (l : List Slot) : (shiftSlots prev l).length = l.length := by
  induction l generalizing prev with
  | nil => rfl
  | cons q rest ih => simp [shiftSlots, ih]

/-- R93: slot k+1 of the shifted list takes from slot k of the list before the edge. -/
theorem getElem?_shiftSlots {prev : Slot} {l : List Slot} {n : Nat} {p q : Slot}
    (hp : (prev :: l)[n]? = some p) (hq : l[n]? = some q) : (shiftSlots prev l)[n]? = some (q.shiftIn p) := by
  induction l generalizing prev n with
  | nil => simp at hq
  | cons r rest ih =>
    cases n with
    | zero => simp_all [shiftSlots]
    | succ n => simpa [shiftSlots] using ih (by simpa using hp) (by simpa using hq)

@[simp] theorem latency_advance (s : State) (q : Slot) : (s.advance q).latency = s.latency := by
  simp [State.latency]

@[simp] theorem latency_resetEdge (s : State) : (resetEdge s).latency = s.latency := by simp [State.latency]

@[simp] theorem latency_edge (T : Tables) (i : Instr) (s : State) : (edge T i s).latency = s.latency := by
  cases i <;> simp [idleEdge, encryptEdge]

@[simp] theorem stimulus_edge (T : Tables) (i : Instr) (s : State) : (edge T i s).stimulus = s.stimulus := by
  cases i <;> rfl

@[simp] theorem length_slots (s : State) : s.slots.length = s.latency := rfl

theorem slot_one (s : State) : s.slot 1 = some s.q1 := rfl

theorem slot_advance_one (s : State) (q : Slot) : (s.advance q).slot 1 = some q := rfl

/-- R93 in the numbering of R24. -/
theorem slot_advance {s : State} {k : Nat} {p q : Slot} (new : Slot) (hk : 2 ≤ k) (hp : s.slot (k - 1) = some p)
    (hq : s.slot k = some q) : (s.advance new).slot k = some (q.shiftIn p) := by
  obtain ⟨n, rfl⟩ : ∃ n, k = n + 2 := ⟨k - 2, by omega⟩
  simp only [State.slot, State.slots, Nat.add_succ_sub_one, List.getElem?_cons_succ, advance_later, advance_q1] at *
  exact getElem?_shiftSlots hp hq

/-- R92 in the numbering of R24. -/
theorem slot_resetEdge {s : State} {k : Nat} {q : Slot} (hq : s.slot k = some q) :
    (resetEdge s).slot k = some q.invalidate := by
  match k with
  | 0 => simp [State.slot] at hq
  | 1 => simp_all [State.slot, State.slots]
  | k + 2 => simp_all [State.slot, State.slots]

theorem slot_eq_some_iff (s : State) (k : Nat) : (∃ q, s.slot k = some q) ↔ 1 ≤ k ∧ k ≤ s.latency := by
  cases k with
  | zero => simp [State.slot]
  | succ k =>
    simp only [State.slot, ← Option.isSome_iff_exists, isSome_getElem?, length_slots]
    simp

/-- The output register is the last slot (R24, R25). -/
theorem getLast?_slots (s : State) : s.slots.getLast? = some s.outSlot := by
  simp [State.slots, State.outSlot, List.getLast?_cons]

/-- The output register is `Q[LATENCY]` (R25). -/
theorem slot_latency (s : State) : s.slot s.latency = some s.outSlot := by
  rw [← getLast?_slots, List.getLast?_eq_getElem?]
  rfl

/-! ### Valid bits -/

theorem valids_shiftSlots (prev : Slot) (l : List Slot) :
    (shiftSlots prev l).map Slot.v = ((prev :: l).map Slot.v).dropLast := by
  induction l generalizing prev with
  | nil => rfl
  | cons q rest ih => simp [shiftSlots, ih]

theorem valids_advance (s : State) (q : Slot) : (s.advance q).valids = q.v :: s.valids.dropLast := by
  simp [State.valids, State.slots, valids_shiftSlots]

theorem valids_resetEdge (s : State) : (resetEdge s).valids = s.valids.map fun _ => false := by
  simp [State.valids, State.slots, Function.comp_def]

theorem getLast?_valids (s : State) : s.valids.getLast? = some s.outValid := by
  simp [State.valids, State.outValid, List.getLast?_map, getLast?_slots]

/-! ### Transactions in flight -/

/-- The result a slot is carrying, if any. -/
def Slot.carried (q : Slot) : Option Block := if q.v then some q.d else none

@[simp] theorem carried_invalidate (q : Slot) : q.invalidate.carried = none := rfl

@[simp] theorem carried_shiftIn (q prev : Slot) : (q.shiftIn prev).carried = prev.carried := by
  simp only [Slot.carried, Slot.shiftIn_v, Slot.shiftIn_d]
  split <;> rfl

/-- What the slots carry, oldest first: the first of them is on the outputs. -/
def State.flight (s : State) : List (Option Block) := (s.slots.map Slot.carried).reverse

@[simp] theorem length_flight (s : State) : s.flight.length = s.latency := by simp [State.flight]

/-- The outputs are the oldest transaction (R25). -/
theorem head_flight (s : State) : s.flight.head? = some s.outSlot.carried := by
  simp [State.flight, List.head?_reverse, List.getLast?_map, getLast?_slots]

theorem outValid_eq_isSome (s : State) : s.outValid = s.outSlot.carried.isSome := by
  simp [State.outValid, Slot.carried]
  split <;> simp_all

theorem outBlock_of_carried {s : State} {B : Block} (h : s.outSlot.carried = some B) :
    s.outValid = true ∧ s.outBlock = B := by
  simp only [Slot.carried] at h
  split at h <;> simp_all [State.outValid, State.outBlock]

theorem carried_shiftSlots (prev : Slot) (l : List Slot) :
    (shiftSlots prev l).map Slot.carried = ((prev :: l).map Slot.carried).dropLast := by
  induction l generalizing prev with
  | nil => rfl
  | cons q rest ih => simp [shiftSlots, ih]

/-- One edge: the oldest transaction leaves, the new one joins as the youngest (R90, R91, R93). -/
theorem flight_advance (s : State) (q : Slot) : (s.advance q).flight = s.flight.tail ++ [q.carried] := by
  simp only [State.flight, State.slots, advance_q1, advance_later, List.map_cons, carried_shiftSlots]
  rw [List.tail_reverse, List.reverse_cons]

/-- A RESET empties the flight (R92, R121). -/
theorem flight_resetEdge (s : State) : (resetEdge s).flight = List.replicate s.latency none := by
  simp [State.flight, State.slots, State.latency, List.map_const', Function.comp_def, List.replicate_succ']

theorem flight_edge (T : Tables) {i : Instr} (hi : i ≠ .reset) (s : State) :
    (edge T i s).flight = s.flight.tail ++ [resultOf T i] := by
  cases i with
  | reset => exact absurd rfl hi
  | idle => exact flight_advance s _
  | encrypt B => exact flight_advance s _

/-- With nothing in flight every carried result is absent. -/
theorem flight_of_quiet {s : State} (h : s.Quiet) : s.flight = List.replicate s.latency none := by
  rw [List.eq_replicate_iff]
  refine ⟨length_flight s, fun o ho => ?_⟩
  obtain ⟨q, hq, rfl⟩ := by simpa [State.flight] using ho
  simp [Slot.carried, h q hq]

theorem quiet_resetEdge (s : State) : (resetEdge s).Quiet := by
  intro q hq
  simp only [State.slots, resetEdge_q1, resetEdge_later, List.mem_cons, List.mem_map] at hq
  rcases hq with rfl | ⟨r, -, rfl⟩ <;> rfl

/-! ### Many edges -/

@[simp] theorem edges_nil (T : Tables) (s : State) : edges T [] s = s := rfl
@[simp] theorem edges_cons (T : Tables) (i : Instr) (ops : List Instr) (s : State) :
    edges T (i :: ops) s = edges T ops (edge T i s) := rfl
theorem edges_append (T : Tables) (as bs : List Instr) (s : State) :
    edges T (as ++ bs) s = edges T bs (edges T as s) := by simp [edges]

@[simp] theorem latency_edges (T : Tables) (ops : List Instr) (s : State) : (edges T ops s).latency = s.latency := by
  induction ops generalizing s with
  | nil => rfl
  | cons i ops ih => simp [ih]

@[simp] theorem stimulus_edges (T : Tables) (ops : List Instr) (s : State) :
    (edges T ops s).stimulus = s.stimulus := by
  induction ops generalizing s with
  | nil => rfl
  | cons i ops ih => simp [ih]

/-- Without a RESET the flight is a window of LATENCY places that slides over the results (R95). -/
theorem flight_edges (T : Tables) {ops : List Instr} (h : Instr.reset ∉ ops) (s : State) :
    (edges T ops s).flight = (s.flight ++ ops.map (resultOf T)).drop ops.length := by
  induction ops generalizing s with
  | nil => simp
  | cons i ops ih =>
    have hi : i ≠ .reset := fun e => h (by simp [e])
    have hpos : s.flight ≠ [] := by
      intro e
      have := length_flight s
      simp [e, State.latency] at this
    obtain ⟨o, rest, hs⟩ := List.exists_cons_of_ne_nil hpos
    rw [edges_cons, ih (fun m => h (List.mem_cons_of_mem _ m)), flight_edge T hi, hs]
    simp

end Sys2Proof.Machine
end

