-- ==== Sys2Proof/Laws/Steps.lean ====
section
/-! SUPPORT. What decoding, one step and a run can do, said once: later proofs cite these and unfold none of them. -/

namespace Sys2Proof

/-! ### Decoding -/

@[simp] theorem vectorRst_packVector (rst v : Bool) (B : Block) : vectorRst (packVector rst v B) = rst := by
  have h : (packVector rst v B).extractLsb' 129 1 = BitVec.ofBool rst := by
    apply BitVec.eq_of_getLsbD_eq
    intro n hn
    obtain rfl : n = 0 := by omega
    simp only [packVector, BitVec.getLsbD_extractLsb', BitVec.getLsbD_append]
    simp
  rw [vectorRst, h]
  cases rst <;> rfl

@[simp] theorem vectorInValid_packVector (rst v : Bool) (B : Block) : vectorInValid (packVector rst v B) = v := by
  have h : (packVector rst v B).extractLsb' 128 1 = BitVec.ofBool v := by
    apply BitVec.eq_of_getLsbD_eq
    intro n hn
    obtain rfl : n = 0 := by omega
    simp only [packVector, BitVec.getLsbD_extractLsb', BitVec.getLsbD_append]
    simp
  rw [vectorInValid, h]
  cases v <;> rfl

@[simp] theorem vectorInBlock_packVector (rst v : Bool) (B : Block) : vectorInBlock (packVector rst v B) = B := by
  apply BitVec.eq_of_getLsbD_eq
  intro n hn
  simp only [vectorInBlock, packVector, BitVec.getLsbD_extractLsb', BitVec.getLsbD_append]
  simp [hn]

@[simp] theorem decode_packVector (rst v : Bool) (B : Block) :
    decode (packVector rst v B) = if rst then .reset else if v then .encrypt B else .idle := by
  simp [decode]

/-- Driven ports select what their vector decodes to (R53). -/
@[simp] theorem decodePorts_vectorPorts (I : CycleVector) : decodePorts (vectorPorts I) = .ok (decode I) := by
  cases hr : vectorRst I <;> cases hv : vectorInValid I <;> simp [decodePorts, vectorPorts, decode, hr, hv]

/-- The contract of R112 is what decoding the ports asks for. -/
theorem decodePorts_ok_iff (p : Ports) : (∃ i, decodePorts p = .ok i) ↔ Machine.HostContract p := by
  rcases p with ⟨_ | r, _ | v, _ | b⟩ <;> try cases v
  all_goals simp [decodePorts, Machine.HostContract]

theorem decodePorts_error_iff (p : Ports) : (∃ e, decodePorts p = .error e) ↔ ¬ Machine.HostContract p := by
  rw [← decodePorts_ok_iff]
  cases h : decodePorts p <;> simp

theorem decodePorts_rst {p : Ports} (hp : Machine.HostContract p) (hr : p.rst = some true) :
    decodePorts p = .ok .reset := by
  rcases p with ⟨_ | r, _ | v, _ | b⟩ <;> try cases v
  all_goals simp_all [decodePorts, Machine.HostContract]

namespace Machine

/-! ### One step -/

/-- No operation stops: its effect is its clock edge on this instance's tables (R100, R106). -/
theorem exec_eq_edge (i : Instr) (s : State) : exec i s = .next (edge Config.tables i s) := by
  cases i <;> rfl

theorem step_nil {s : State} (h : s.stimulus = []) : step s = .refused .stimulusExhausted := by
  simp [step, samplePorts, h]

theorem step_ok {s : State} {p : Ports} {rest : List Ports} {i : Instr} (h : s.stimulus = p :: rest)
    (hi : decodePorts p = .ok i) : step s = .next (edge Config.tables i (s.withStimulus rest)) := by
  simp [step, samplePorts, h, hi, exec_eq_edge]

theorem step_error {s : State} {p : Ports} {rest : List Ports} {e : PortReject} (h : s.stimulus = p :: rest)
    (he : decodePorts p = .error e) : step s = .refused (.inputContract e) := by
  simp [step, samplePorts, h, he]

/-- The inversion of a step: a step that goes on is the edge of a presented operation. -/
theorem step_next {s t : State} (h : step s = .next t) :
    ∃ p rest i, s.stimulus = p :: rest ∧ decodePorts p = .ok i ∧
      t = edge Config.tables i (s.withStimulus rest) := by
  match hs : s.stimulus with
  | [] => simp [step_nil hs] at h
  | p :: rest =>
    match hp : decodePorts p with
    | .error e => simp [step_error hs hp] at h
    | .ok i =>
      rw [step_ok hs hp] at h
      exact ⟨p, rest, i, rfl, hp, by simpa using h.symm⟩

/-- The inputs have no part in what an edge does to the slots (R31). -/
theorem edge_withStimulus (T : Tables) (i : Instr) (s : State) (ps : List Ports) :
    edge T i (s.withStimulus ps) = (edge T i s).withStimulus ps := by
  cases i <;> rfl

theorem edges_withStimulus (T : Tables) (ops : List Instr) (s : State) (ps : List Ports) :
    edges T ops (s.withStimulus ps) = (edges T ops s).withStimulus ps := by
  induction ops generalizing s with
  | nil => rfl
  | cons i ops ih => rw [edges_cons, edge_withStimulus, ih, edges_cons]

@[simp] theorem slot_withStimulus (s : State) (ps : List Ports) (k : Nat) :
    (s.withStimulus ps).slot k = s.slot k := by
  cases k <;> rfl

@[simp] theorem outSlot_withStimulus (s : State) (ps : List Ports) :
    (s.withStimulus ps).outSlot = s.outSlot := rfl
@[simp] theorem outValid_withStimulus (s : State) (ps : List Ports) :
    (s.withStimulus ps).outValid = s.outValid := rfl
@[simp] theorem outBlock_withStimulus (s : State) (ps : List Ports) :
    (s.withStimulus ps).outBlock = s.outBlock := rfl
@[simp] theorem flight_withStimulus (s : State) (ps : List Ports) :
    (s.withStimulus ps).flight = s.flight := rfl
@[simp] theorem latency_withStimulus (s : State) (ps : List Ports) :
    (s.withStimulus ps).latency = s.latency := rfl

/-! ### Runs -/

/-- A state that presents an operation steps by its edge, and presents the others after it. -/
theorem presents_cons {s : State} {i : Instr} {ops : List Instr} (h : s.Presents (i :: ops)) :
    ∃ p rest, s.stimulus = p :: rest ∧ decodePorts p = .ok i ∧
      step s = .next ((edge Config.tables i s).withStimulus rest) ∧
      ((edge Config.tables i s).withStimulus rest).Presents ops := by
  match hs : s.stimulus with
  | [] => simp [State.Presents, hs] at h
  | p :: rest =>
    simp only [State.Presents, hs, List.map_cons, List.cons_prefix_cons] at h
    refine ⟨p, rest, rfl, h.1.symm, ?_, h.2⟩
    rw [step_ok hs h.1.symm, edge_withStimulus]

@[simp] theorem run_zero (s : State) : Host.Core.run Sys2Proof.core 0 s = .next s := rfl

theorem run_succ (n : Nat) (s : State) : Host.Core.run Sys2Proof.core (n + 1) s =
    match step s with
    | .next t => Host.Core.run Sys2Proof.core n t
    | .fault r => .fault r
    | .refused r => .refused r := by
  cases hs : step s <;> simp only [Host.Core.run, show Sys2Proof.core.step s = _ from hs]

/-- A run of presented operations is their edges (R115). -/
theorem run_presents {ops : List Instr} {s : State} (h : s.Presents ops) :
    Host.Core.run Sys2Proof.core ops.length s
      = .next ((edges Config.tables ops s).withStimulus (s.stimulus.drop ops.length)) := by
  induction ops generalizing s with
  | nil => rfl
  | cons i ops ih =>
    obtain ⟨p, rest, hs, -, hstep, hrest⟩ := presents_cons h
    rw [List.length_cons, run_succ, hstep]
    simp only [ih hrest, edges_withStimulus, hs, List.drop_succ_cons, edges_cons]
    rfl

theorem presents_append {s : State} {as bs : List Instr} (h : s.Presents (as ++ bs)) : s.Presents as := by
  simp only [State.Presents, List.map_append] at h
  exact (List.prefix_append _ _).trans h

theorem presents_take {s : State} {ops : List Instr} (n : Nat) (h : s.Presents ops) : s.Presents (ops.take n) :=
  presents_append (by rwa [List.take_append_drop] : s.Presents (ops.take n ++ ops.drop n))

/-- What a host captures while no RESET comes: the transactions in flight, then the new ones, in order (R95). -/
theorem results_presents {ops : List Instr} {s : State} (hr : Instr.reset ∉ ops) (h : s.Presents ops) :
    results ops.length s = ((s.flight ++ ops.map (resultOf Config.tables)).tail.take ops.length).filterMap id := by
  induction ops generalizing s with
  | nil => simp [results]
  | cons i ops ih =>
    obtain ⟨p, rest, hs, -, hstep, hrest⟩ := presents_cons h
    have hi : i ≠ .reset := fun e => hr (by simp [e])
    have hpos : s.flight ≠ [] := by
      intro e
      have := length_flight s
      simp [e, State.latency] at this
    obtain ⟨o, os, hos⟩ := List.exists_cons_of_ne_nil hpos
    have hf : ((edge Config.tables i s).withStimulus rest).flight
        = os ++ [resultOf Config.tables i] := by
      rw [flight_withStimulus, flight_edge _ hi, hos, List.tail_cons]
    rw [List.length_cons, results, hstep]
    simp only
    rw [ih (fun m => hr (List.mem_cons_of_mem _ m)) hrest, hf, hos]
    have hh := head_flight ((edge Config.tables i s).withStimulus rest)
    rw [hf] at hh
    generalize ht : ((edge Config.tables i s).withStimulus rest) = t at hh ⊢
    have key : (os ++ List.map (resultOf Config.tables) (i :: ops))
        = t.outSlot.carried :: (os ++ [resultOf Config.tables i] ++ ops.map (resultOf Config.tables)).tail := by
      cases os with
      | nil => simp_all
      | cons o' os' => simp_all
    rw [List.cons_append, List.tail_cons, key, List.take_succ_cons]
    cases hc : t.outSlot.carried with
    | none => simp [outValid_eq_isSome, hc]
    | some B =>
      obtain ⟨h1, h2⟩ := outBlock_of_carried hc
      simp [h1, h2]

end Machine
end Sys2Proof
end

