-- ==== Sys2Proof/Laws/Opcodes.lean ====
section
/-! SUPPORT. What the match and mask of each row of spec/opcode_table.json ask of a vector, in terms of its two selecting
bits (spec/30_encoding.md R53, R55 to R57). -/

namespace Sys2Proof

theorem top_append (I : CycleVector) : I.extractLsb' 128 2 ++ vectorInBlock I = I := by
  apply BitVec.eq_of_getLsbD_eq
  intro n hn
  simp only [vectorInBlock, BitVec.getLsbD_append, BitVec.getLsbD_extractLsb']
  split
  · simp_all
  · have h : 128 + (n - 128) = n := by omega
    have h2 : n - 128 < 2 := by omega
    simp [h, h2]

theorem and_topMask (I : CycleVector) (m : BitVec 2) :
    I &&& ((m ++ (0 : Block)) : CycleVector) = (I.extractLsb' 128 2 &&& m) ++ (0 : Block) := by
  conv_lhs => rw [← top_append I]
  rw [BitVec.and_append]
  simp

theorem top_append_inj {a b : BitVec 2} : (a ++ (0 : Block) : CycleVector) = b ++ (0 : Block) ↔ a = b := by
  constructor
  · intro h
    have := congrArg (BitVec.extractLsb' 128 2) h
    simpa only [BitVec.extractLsb'_append_eq_left] using this
  · rintro rfl
    rfl

theorem vectorRst_top (I : CycleVector) : vectorRst I = ((I.extractLsb' 128 2).extractLsb' 1 1 == 1#1) := by
  unfold vectorRst
  congr 1
  apply BitVec.eq_of_getLsbD_eq
  intro n hn
  obtain rfl : n = 0 := by omega
  simp only [BitVec.getLsbD_extractLsb']
  simp

theorem vectorInValid_top (I : CycleVector) : vectorInValid I = ((I.extractLsb' 128 2).extractLsb' 0 1 == 1#1) := by
  unfold vectorInValid
  congr 1
  apply BitVec.eq_of_getLsbD_eq
  intro n hn
  obtain rfl : n = 0 := by omega
  simp only [BitVec.getLsbD_extractLsb']
  simp

/-- A vector is packed from its three fields (R53). -/
theorem packVector_fields (I : CycleVector) : packVector (vectorRst I) (vectorInValid I) (vectorInBlock I) = I := by
  have h : BitVec.ofBool (vectorRst I) ++ BitVec.ofBool (vectorInValid I) = I.extractLsb' 128 2 := by
    rw [vectorRst_top, vectorInValid_top]
    generalize I.extractLsb' 128 2 = x
    revert x
    decide
  conv_rhs => rw [← top_append I, ← h]
  rfl

/-- A row whose match and mask are in the top two bits selects by them. -/
theorem selects_top {row : OpcodeRow} {m p : BitVec 2} (hm : row.mask = m ++ (0 : Block))
    (hp : row.pattern = p ++ (0 : Block)) (I : CycleVector) :
    row.selects I = (I.extractLsb' 128 2 &&& m == p) := by
  simp only [OpcodeRow.selects, hm, hp, and_topMask, Bool.beq_eq_decide_eq, top_append_inj]

/-- Row RESET selects by `rst` (R55). -/
theorem selects_reset (I : CycleVector) : opcodeTable[0].selects I = vectorRst I := by
  rw [selects_top (m := 2#2) (p := 2#2) (by decide) (by decide), vectorRst_top]
  generalize I.extractLsb' 128 2 = x
  revert x
  decide

/-- Row IDLE selects by `rst = 0` and `in_valid = 0` (R56). -/
theorem selects_idle (I : CycleVector) : opcodeTable[1].selects I = (!vectorRst I && !vectorInValid I) := by
  rw [selects_top (m := 3#2) (p := 0#2) (by decide) (by decide), vectorRst_top, vectorInValid_top]
  generalize I.extractLsb' 128 2 = x
  revert x
  decide

/-- Row ENCRYPT selects by `rst = 0` and `in_valid = 1` (R57). -/
theorem selects_encrypt (I : CycleVector) : opcodeTable[2].selects I = (!vectorRst I && vectorInValid I) := by
  rw [selects_top (m := 3#2) (p := 1#2) (by decide) (by decide), vectorRst_top, vectorInValid_top]
  generalize I.extractLsb' 128 2 = x
  revert x
  decide

end Sys2Proof
end

