-- ==== Sys2Proof/Laws/PerInstr.lean ====
section
/-! SUPPORT. Statements about every operation as syntax, one lemma per constructor of Instr. -/

namespace Sys2Proof.Laws

/-- The family OpcodeRowOf: the operation's encoding is selected by the row of spec/opcode_table.json that has its
mnemonic (R55 to R57). -/
def OpcodeRowOf.Statement (i : Instr) : Prop :=
  ∃ row ∈ opcodeTable, row.mnemonic = i.mnemonic ∧ row.selects (encode i) = true

theorem OpcodeRowOf.reset : OpcodeRowOf.Statement .reset :=
  ⟨opcodeTable[0], by decide, rfl, by rw [selects_reset]; simp [encode]⟩

theorem OpcodeRowOf.idle : OpcodeRowOf.Statement .idle :=
  ⟨opcodeTable[1], by decide, rfl, by rw [selects_idle]; simp [encode]⟩

theorem OpcodeRowOf.encrypt (block : Block) : OpcodeRowOf.Statement (.encrypt block) :=
  ⟨opcodeTable[2], by decide, rfl, by rw [selects_encrypt]; simp [encode]⟩

end Sys2Proof.Laws
end

