-- ==== Sys2Proof/Laws/Views.lean ====
section
/-! SUPPORT. The byte, word and block views of one value (spec/20_memory.md R45, R49): each view of each constructor, XOR
in each view, positions of bytes, and extensionality by bytes. -/

namespace Sys2Proof.Machine

@[simp] theorem get_ofWords (f : Fin 4 → Word) (i : Fin 4) : (ofWords f).get i = f i := by
  fin_cases i <;> rfl

theorem words_ext {t u : Words} (h : ∀ i, t.get i = u.get i) : t = u := by
  apply Vector.ext
  intro i hi
  simpa [Vector.get] using h ⟨i, hi⟩

/-- Bits of a byte of a word (R9). -/
theorem getLsbD_wordByte (w : Word) (j : Fin 4) (n : Nat) :
    (wordByte w j).getLsbD n = (decide (n < 8) && w.getLsbD (24 - 8 * j.val + n)) := by
  simp [wordByte, BitVec.getLsbD_extractLsb']

/-- Bits of a byte of a block (R9). -/
theorem getLsbD_blockByte (B : Block) (k : Fin 16) (n : Nat) :
    (blockByte B k).getLsbD n = (decide (n < 8) && B.getLsbD (120 - 8 * k.val + n)) := by
  simp [blockByte, BitVec.getLsbD_extractLsb']

/-- Bits of a word of a block (R58). -/
theorem getLsbD_word (B : Block) (i : Fin 4) (n : Nat) :
    (word B i).getLsbD n = (decide (n < 32) && B.getLsbD (96 - 32 * i.val + n)) := by
  simp [word, BitVec.getLsbD_extractLsb']

@[simp] theorem wordByte_wordOfBytes (f : Fin 4 → Byte) (j : Fin 4) : wordByte (wordOfBytes f) j = f j := by
  apply BitVec.eq_of_getLsbD_eq
  intro n hn
  rw [getLsbD_wordByte]
  fin_cases j <;> simp only [wordOfBytes, BitVec.getLsbD_append] <;>
    simp (disch := omega) only [if_pos, if_neg, hn, decide_true, Bool.true_and] <;> congr 1 <;> simp <;> omega

@[simp] theorem word_wordsBlock (t : Words) (i : Fin 4) : word (wordsBlock t) i = t.get i := by
  apply BitVec.eq_of_getLsbD_eq
  intro n hn
  rw [getLsbD_word]
  fin_cases i <;> simp only [wordsBlock, BitVec.getLsbD_append] <;>
    simp (disch := omega) only [if_pos, if_neg, hn, decide_true, Bool.true_and] <;> congr 1 <;> simp <;> omega

theorem wordByte_xor (a b : Word) (j : Fin 4) : wordByte (a ^^^ b) j = wordByte a j ^^^ wordByte b j := by
  apply BitVec.eq_of_getLsbD_eq
  intro n hn
  simp only [getLsbD_wordByte, BitVec.getLsbD_xor, hn, decide_true, Bool.true_and]

theorem word_xor (A B : Block) (i : Fin 4) : word (A ^^^ B) i = word A i ^^^ word B i := by
  apply BitVec.eq_of_getLsbD_eq
  intro n hn
  simp only [getLsbD_word, BitVec.getLsbD_xor, hn, decide_true, Bool.true_and]

theorem blockByte_xor (A B : Block) (k : Fin 16) : blockByte (A ^^^ B) k = blockByte A k ^^^ blockByte B k := by
  apply BitVec.eq_of_getLsbD_eq
  intro n hn
  simp only [getLsbD_blockByte, BitVec.getLsbD_xor, hn, decide_true, Bool.true_and]

/-- Byte j of word i is block byte 4i + j (R45). -/
theorem blockByte_bytePos (B : Block) (i j : Fin 4) : blockByte B (bytePos i j) = wordByte (word B i) j := by
  apply BitVec.eq_of_getLsbD_eq
  intro n hn
  have h : 96 - 32 * i.val + (24 - 8 * j.val + n) = 120 - 8 * (4 * i.val + j.val) + n := by omega
  have h' : 24 - 8 * j.val + n < 32 := by omega
  simp only [getLsbD_blockByte, getLsbD_wordByte, getLsbD_word, bytePos, hn, h, h', decide_true, Bool.true_and]

@[simp] theorem wordIndex_bytePos (i j : Fin 4) : wordIndex (bytePos i j) = i := by
  apply Fin.ext
  simp only [wordIndex, bytePos]
  omega

@[simp] theorem byteIndex_bytePos (i j : Fin 4) : byteIndex (bytePos i j) = j := by
  apply Fin.ext
  simp only [byteIndex, bytePos]
  omega

@[simp] theorem bytePos_indices (k : Fin 16) : bytePos (wordIndex k) (byteIndex k) = k := by
  apply Fin.ext
  simp only [bytePos, wordIndex, byteIndex]
  omega

/-- Each byte of a byte sequence that is given by a function. -/
@[simp] theorem get_ofFn (f : Fin 16 → Byte) (k : Fin 16) : (Vector.ofFn f : Bytes).get k = f k := by
  show (Vector.ofFn f)[k.val] = f k
  simp

theorem bytes_ext {a b : Bytes} (h : ∀ k, a.get k = b.get k) : a = b := by
  apply Vector.ext
  intro i hi
  simpa [Vector.get] using h ⟨i, hi⟩

@[simp] theorem get_blockBytes (B : Block) (k : Fin 16) : (blockBytes B).get k = blockByte B k := by
  simp [blockBytes]

theorem exists_bytePos (k : Fin 16) : ∃ i j, k = bytePos i j := by
  refine ⟨⟨k.val / 4, by omega⟩, ⟨k.val % 4, by omega⟩, ?_⟩
  apply Fin.ext
  simp only [bytePos]
  omega

theorem bytePos_injective {i j i' j' : Fin 4} (h : bytePos i j = bytePos i' j') : i = i' ∧ j = j' := by
  have := congrArg Fin.val h
  simp only [bytePos] at this
  constructor <;> apply Fin.ext <;> omega

theorem word_ext {a b : Word} (h : ∀ j, wordByte a j = wordByte b j) : a = b := by
  apply BitVec.eq_of_getLsbD_eq
  intro n hn
  have hj := congrArg (fun x => BitVec.getLsbD x (n % 8)) (h ⟨3 - n / 8, by omega⟩)
  have e : 24 - 8 * (3 - n / 8) + n % 8 = n := by omega
  simpa only [getLsbD_wordByte, e, Nat.mod_lt n (by decide : 0 < 8), decide_true, Bool.true_and] using hj

theorem block_ext_words {A B : Block} (h : ∀ i, word A i = word B i) : A = B := by
  apply BitVec.eq_of_getLsbD_eq
  intro n hn
  have hi := congrArg (fun x => BitVec.getLsbD x (n % 32)) (h ⟨3 - n / 32, by omega⟩)
  have e : 96 - 32 * (3 - n / 32) + n % 32 = n := by omega
  simpa only [getLsbD_word, e, Nat.mod_lt n (by decide : 0 < 32), decide_true, Bool.true_and] using hi

theorem block_ext {A B : Block} (h : ∀ k, blockByte A k = blockByte B k) : A = B := by
  refine block_ext_words fun i => word_ext fun j => ?_
  rw [← blockByte_bytePos, ← blockByte_bytePos, h]

@[simp] theorem wordsBlock_blockWords (B : Block) : wordsBlock (blockWords B) = B := by
  refine block_ext_words fun i => ?_
  simp [blockWords]

@[simp] theorem blockWords_wordsBlock (t : Words) : blockWords (wordsBlock t) = t := by
  refine words_ext fun i => ?_
  simp [blockWords]

/-- Byte 4i + j of a block made of words (R45, R84). -/
theorem blockByte_wordsBlock (t : Words) (i j : Fin 4) :
    blockByte (wordsBlock t) (bytePos i j) = wordByte (t.get i) j := by
  simp [blockByte_bytePos]

/-- Byte 4i + j of the byte view of four words (R45, R49). -/
@[simp] theorem get_wordsBytes (t : Words) (i j : Fin 4) : (wordsBytes t).get (bytePos i j) = wordByte (t.get i) j := by
  simp [wordsBytes, blockByte_wordsBlock]

/-- Byte k of the block made of a byte sequence (R45, R49). -/
theorem blockByte_bytesBlock (b : Bytes) (k : Fin 16) : blockByte (bytesBlock b) k = b.get k := by
  obtain ⟨i, j, rfl⟩ := exists_bytePos k
  simp [bytesBlock, blockByte_wordsBlock]

end Sys2Proof.Machine
end

