-- ==== Sys2Proof/Laws/Rounds.lean ====
section
/-! SUPPORT. One lemma per function of the datapath (spec/40_lookup.md to spec/44_operations.md R89), by word and by byte,
and the composition of the stages of the staged design (spec/10_state.md R30). -/

namespace Sys2Proof.Machine

@[simp] theorem get_whiten (T : Tables) (B : Block) (i : Fin 4) :
    (whiten T B).get i = word B i ^^^ word (T.rk 0) i := by
  simp [whiten, roundKeyWord]

@[simp] theorem get_mainRound (T : Tables) (r : Fin 11) (t : Words) (i : Fin 4) :
    (mainRound T r t).get i = roundWord T r t i := by
  simp [mainRound]

/-- Byte k of a main-round output word (R79). -/
theorem wordByte_roundWord (T : Tables) (r : Fin 11) (t : Words) (i k : Fin 4) :
    wordByte (roundWord T r t i) k =
      wordByte (T.te 0 (src t i 0)) k ^^^ wordByte (T.te 1 (src t i 1)) k ^^^ wordByte (T.te 2 (src t i 2)) k
        ^^^ wordByte (T.te 3 (src t i 3)) k ^^^ blockByte (T.rk r) (bytePos i k) := by
  simp [roundWord, teLookup, roundKeyWord, wordByte_xor, blockByte_bytePos]

/-- A main-round word reads only its four staggered bytes (R79). -/
theorem roundWord_congr (T : Tables) (r : Fin 11) {t t' : Words} {i : Fin 4} (h : ∀ j, src t i j = src t' i j) :
    roundWord T r t i = roundWord T r t' i := by
  simp [roundWord, h]

/-- Byte 4i + j of the final round (R83, R86). -/
theorem blockByte_finalRound (T : Tables) (t : Words) (i j : Fin 4) :
    blockByte (finalRound T t) (bytePos i j) = T.sbox (src t i j) ^^^ blockByte (T.rk 10) (bytePos i j) := by
  simp [finalRound, blockByte_wordsBlock, finalByte, sboxLookup]

/-- The staggered byte is the same in both views (R12, R49). -/
@[simp] theorem srcByte_wordsBytes (t : Words) (i j c : Fin 4) : srcByte (wordsBytes t) (bytePos i j) c = src t i c := by
  simp [srcByte, src]

@[simp] theorem get_whitenBytes (T : Tables) (b : Bytes) (k : Fin 16) :
    (whitenBytes T b).get k = b.get k ^^^ blockByte (T.rk 0) k := by
  simp [whitenBytes]

@[simp] theorem get_mainRoundBytes (T : Tables) (r : Fin 11) (b : Bytes) (k : Fin 16) :
    (mainRoundBytes T r b).get k = roundByte T r b k := by
  simp [mainRoundBytes]

@[simp] theorem get_finalRoundBytes (T : Tables) (b : Bytes) (k : Fin 16) :
    (finalRoundBytes T b).get k = T.sbox (srcByte b k (byteIndex k)) ^^^ blockByte (T.rk 10) k := by
  simp [finalRoundBytes, sboxLookup]

theorem stage_zero (T : Tables) (B : Block) : stage T B 0 = whiten T B := rfl

/-- `S_r` is main round r of `S_{r-1}` (R76). -/
theorem stage_succ (T : Tables) (B : Block) (r : Fin 9) :
    stage T B (r.val + 1) = mainRound T ⟨r.val + 1, by omega⟩ (stage T B r.val) := by
  fin_cases r <;> rfl

theorem stagesFrom_add (T : Tables) (a m n : Nat) (x : Block) :
    stagesFrom T a (m + n) x = stagesFrom T (a + m) n (stagesFrom T a m x) := by
  induction m generalizing a x with
  | zero => simp [stagesFrom]
  | succ m ih => rw [Nat.succ_add, stagesFrom, ih, stagesFrom, Nat.add_right_comm, Nat.add_assoc]

/-- All eleven stages are the encryption function (R89). -/
theorem stagesFrom_all (T : Tables) (B : Block) : stagesFrom T 0 11 B = enc T B := by
  simp [stagesFrom, stageStep, enc, stage, mainRoundNumbers, Fin.ofNat]

end Sys2Proof.Machine
end

