-- ==== Sys2Proof/Tests/Slice0.lean ====
section
/-! SUPPORT. Tests of single operations against words and vectors of the spec, and a witness for the hypotheses of every
statement. Expected values come from spec/95_test_vectors.md (V-…), from spec/30_encoding.md, or from a rule named in
the comment; none was taken from the model. -/

namespace Sys2Proof.Tests

open Sys2Proof.Machine

/-! ### Decoding words written out from R53 and opcode_table.json -/

/-- `rst` is bit 129; the bits RESET ignores at 0 and at 1. -/
theorem test_decode_reset :
    decode (1#1 ++ 0#1 ++ 0#128) = .reset ∧ decode 0x3ffffffffffffffffffffffffffffffff = .reset := by decide

/-- Both selecting bits 0; `in_block` ignored. -/
theorem test_decode_idle : decode (0#130) = .idle ∧ decode 0x0ffffffffffffffffffffffffffffffff = .idle := by decide

/-- `in_valid` is bit 128; the operand is bits 127..0. -/
theorem test_decode_encrypt :
    decode (0#1 ++ 1#1 ++ 0x00112233445566778899aabbccddeeff#128)
      = .encrypt 0x00112233445566778899aabbccddeeff := by decide

/-- The table's numbering, in whole bytes, through the step: the operation runs first after reset. -/
theorem test_table_word :
    decodeTableWord 136 0x100112233445566778899aabbccddeeff = some (.encrypt 0x00112233445566778899aabbccddeeff) ∧
    step (State.reset.withFetchWord 136 0x200000000000000000000000000000000) = exec .reset State.reset :=
  ⟨by decide, rfl⟩

/-- R64: a RESET line drives in_valid = 0 and in_block = 0. -/
theorem test_encode :
    encode .reset = 0x200000000000000000000000000000000 ∧ encode .idle = 0 ∧
    encode (.encrypt 0xff) = 0x1000000000000000000000000000000ff := by decide

/-- R112: an unknown `in_block` matters only with in_valid = 1; an unknown `in_valid` or `rst` always. -/
theorem test_unknown_ports :
    decodePorts { rst := some false, inValid := some false, inBlock := none } = .ok .idle ∧
    decodePorts { rst := some false, inValid := some true, inBlock := none } = .error .inBlockUnknown ∧
    decodePorts { rst := some true, inValid := none, inBlock := some 0 } = .error .inValidUnknown ∧
    decodePorts { rst := none, inValid := some false, inBlock := some 0 } = .error .rstUnknown := by decide

/-! ### Well-formedness and the text form (R64, R65, R66) -/

/-- 31 digits are no block. -/
theorem test_illformed_encrypt : (Line.encrypt (List.replicate 31 0)).wellFormed = false := by decide

/-- `WAIT 0` is no line. -/
theorem test_illformed_wait : (Line.wait 0).wellFormed = false := by decide

/-- The ill-formed lines are refused in text form too. -/
theorem test_parse_rejects :
    parseLine "ENCRYPT 0011223344556677".toList = .error .badOperand ∧
    parseLine "WAIT 0".toList = .error .badOperand ∧ parseLine "DECRYPT 00".toList = .error .noSuchLine := by
  decide +kernel

/-- Lines of 95 P1, with a comment and the optional 0x. -/
theorem test_assemble :
    assemble ["RESET ; cycle 0", "ENCRYPT 0x00112233445566778899aabbccddeeff", "WAIT 2"]
      = .ok [0x200000000000000000000000000000000, 0x100112233445566778899aabbccddeeff, 0, 0] := by decide +kernel

/-! ### Lookups, whitening, rounds (95 sections 3.1 to 3.4) -/

/-- V-L1 to V-L4. -/
theorem test_sbox : [0x00, 0x01, 0x53, 0xff].map (sboxLookup instFips) = [0x63, 0x7c, 0xed, 0x16] := by decide +kernel

/-- V-L5 to V-L8. -/
theorem test_te :
    ([0, 1, 2, 3] : List (Fin 4)).map (fun c => teLookup instFips c 0x00) = [0xc66363a5, 0xa5c66363, 0x63a5c663, 0x6363a5c6] ∧
    ([0, 1, 2, 3] : List (Fin 4)).map (fun c => teLookup instFips c 0x01) = [0xf87c7c84, 0x84f87c7c, 0x7c84f87c, 0x7c7c84f8] ∧
    teLookup instFips 0 0xff = 0x2c16163a ∧ teLookup instFips 3 0xff = 0x16163a2c ∧ teLookup instShift 2 0x5a = 0x00005a00 := by
  decide +kernel

/-- V-W1 and V-W4. -/
theorem test_whiten :
    wordsBlock (whiten instFips 0x00112233445566778899aabbccddeeff) = 0x00102030405060708090a0b0c0d0e0f0 ∧
    wordsBlock (whiten instFips 0xffffffffffffffffffffffffffffffff) = 0xfffefdfcfbfaf9f8f7f6f5f4f3f2f1f0 := by
  decide +kernel

/-- V-R1, V-R3, V-R4 and V-R5 (the stagger direction, R80). -/
theorem test_main_round :
    wordsBlock (mainRound instFips 1 (blockWords 0x00102030405060708090a0b0c0d0e0f0)) = 0x89d810e8855ace682d1843d8cb128fe4 ∧
    wordsBlock (mainRound instFips 1 (blockWords 0)) = 0xb5c9179eb1cc1199b9c51b92b5c8159d ∧
    wordsBlock (mainRound { instXor with rk := instFips.rk } 1 (blockWords 0x000102030405060708090a0b0c0d0e0f))
      = 0xd6aa74fdd2af72fadaa678f1d6ab76fe ∧
    wordsBlock (mainRound instShift 5 (blockWords 0x000102030405060708090a0b0c0d0e0f))
      = 0x00050a0f04090e03080d02070c01060b := by decide +kernel

/-- The full trace of V-E1, S_0 to S_9. -/
theorem test_stage_trace :
    (List.range 10).map (fun r => wordsBlock (stage instFips 0x00112233445566778899aabbccddeeff r))
      = [0x00102030405060708090a0b0c0d0e0f0, 0x89d810e8855ace682d1843d8cb128fe4, 0x4915598f55e5d7a0daca94fa1f0a63f7,
         0xfa636a2825b339c940668a3157244d17, 0x247240236966b3fa6ed2753288425b6c, 0xc81677bc9b7ac93b25027992b0261996,
         0xc62fe109f75eedc3cc79395d84f9cf5d, 0xd1876c0f79c4300ab45594add66ff41f, 0xfde3bad205e5d0d73547964ef1fe37f1,
         0xbd6e7c3df2b5779e0b61216e8b10b689] := by decide +kernel

/-- V-F1, V-F3 and V-F4 (the key at the output position, R86). -/
theorem test_final_round :
    finalRound instFips (blockWords 0xbd6e7c3df2b5779e0b61216e8b10b689) = 0x69c4e0d86a7b0430d8cdb78070b4c55a ∧
    finalRound instShift (blockWords 0x000102030405060708090a0b0c0d0e0f) = 0x00050a0f04090e03080d02070c01060b ∧
    finalRound instXor (blockWords 0x000102030405060708090a0b0c0d0e0f) = 0x0a0f00050e0304090207080d060b0c01 := by
  decide +kernel

/-- V-R1, V-R5 and V-F4 in the byte view (R49). -/
theorem test_byte_view :
    bytesBlock (mainRoundBytes instFips 1 (blockBytes 0x00102030405060708090a0b0c0d0e0f0))
      = 0x89d810e8855ace682d1843d8cb128fe4 ∧
    bytesBlock (mainRoundBytes instShift 5 (blockBytes 0x000102030405060708090a0b0c0d0e0f))
      = 0x00050a0f04090e03080d02070c01060b ∧
    bytesBlock (finalRoundBytes instXor (blockBytes 0x000102030405060708090a0b0c0d0e0f))
      = 0x0a0f00050e0304090207080d060b0c01 := by decide +kernel

/-- V-E1, V-E5 to V-E10. -/
theorem test_enc_fips :
    [0x00112233445566778899aabbccddeeff, 0, 0xffffffffffffffffffffffffffffffff, 0x80000000000000000000000000000000, 1,
     0x00112233445566778899aabbccddeefe, 0x0123456789abcdeffedcba9876543210].map (enc instFips)
      = [0x69c4e0d86a7b0430d8cdb78070b4c55a, 0xc6a13b37878f5b826f4f8162a1c8d879, 0x3c441f32ce07822364d7a2990e50bb13,
         0x4399572cd6ea5341b8d35876a7098af7, 0x7346139595c0b41e497bbde365f42d0a, 0xc32d9c183e5b132e3e43fd740aa1290f,
         0x868d79bd49a5681cfae908ad51300ba0] := by decide +kernel

/-- V-E2 to V-E4, V-E11 to V-E15. -/
theorem test_enc_others :
    enc instFipsB 0x3243f6a8885a308d313198a2e0370734 = 0x3925841d02dc09fbdc118597196a0b32 ∧
    enc instZk 0 = 0x66e94bd4ef8a2c3b884cfa59ca342b2e ∧
    enc instZk 0xffffffffffffffffffffffffffffffff = 0x3f5b8cc9ea855a0afa7347d23e8d664e ∧
    enc instShift 0x000102030405060708090a0b0c0d0e0f = 0x0009020b040d060f08010a030c050e07 ∧
    enc instShift 0x0123456789abcdeffedcba9876543210 = 0x01dc45988954cd10fe23ba6776ab32ef ∧
    enc instXor 0x0123456789abcdeffedcba9876543210 = 0x03030303030303030303030303030303 ∧
    enc instXor 0x03030303030303030303030303030303 = 0x03030303030303030303030303030303 ∧
    enc instShiftK 0 = 0x0b0b0b0b0b0b0b0b0b0b0b0b0b0b0b0b := by decide +kernel

/-! ### The three operations (95 section 3.6) -/

/-- A state of the reference latency 1. -/
def oneSlot (v : Bool) (d : Block) : State := { q1 := { v := v, d := d }, later := [], stimulus := [] }

/-- V-O1. -/
theorem test_encrypt_edge :
    encryptEdge instFips 0x00112233445566778899aabbccddeeff (oneSlot false 7)
      = oneSlot true 0x69c4e0d86a7b0430d8cdb78070b4c55a := by decide +kernel

/-- V-O5, read at the ports (R54). -/
theorem test_encrypt_after_encrypt :
    (encryptEdge instFips 0 (oneSlot true 0x69c4e0d86a7b0430d8cdb78070b4c55a)).outVector
      = 0x1c6a13b37878f5b826f4f8162a1c8d879 := by decide +kernel

/-- V-O2. -/
theorem test_idle_holds_data :
    idleEdge (oneSlot true 0x69c4e0d86a7b0430d8cdb78070b4c55a) = oneSlot false 0x69c4e0d86a7b0430d8cdb78070b4c55a := by
  decide

/-- The LATENCY = 3 shift vector: Q = [(1,a), (0,b), (1,c)] becomes [(0,a), (1,a), (0,c)]. -/
theorem test_idle_shift :
    idleEdge { q1 := { v := true, d := 0xa }, later := [{ v := false, d := 0xb }, { v := true, d := 0xc }], stimulus := [] }
      = { q1 := { v := false, d := 0xa }, later := [{ v := true, d := 0xa }, { v := false, d := 0xc }], stimulus := [] } := by
  decide

/-- V-O3. -/
theorem test_reset_keeps_data :
    resetEdge (oneSlot true 0x69c4e0d86a7b0430d8cdb78070b4c55a) = oneSlot false 0x69c4e0d86a7b0430d8cdb78070b4c55a := by
  decide

/-- V-O4: the vector 11 with a block is a RESET, and the block is dropped. -/
theorem test_reset_beats_encrypt :
    step ((oneSlot false 0x69c4e0d86a7b0430d8cdb78070b4c55a).withFetchWord 136 0x3ffffffffffffffffffffffffffffffff)
      = .next (oneSlot false 0x69c4e0d86a7b0430d8cdb78070b4c55a) := rfl

/-! ### Witnesses: a concrete input that meets the hypotheses of each statement that has some -/

/-- Two slots, the first with a result and the second without; it is driven with the operations `ops`. -/
def twoSlots (ops : List Instr) : State :=
  { q1 := { v := true, d := 1 }, later := [{ v := false, d := 2 }], stimulus := ops.map fun i => vectorPorts (encode i) }

/-- One slot without a result, driven with the operations `ops`. -/
def oneDriven (ops : List Instr) : State := (oneSlot false 3).withProgram (ops.map encode)

/-- Ports that break the contract of R112. -/
def badPorts : Ports := { rst := none, inValid := some true, inBlock := some 0 }

theorem witness_DecodingIsTotalAndFollowsTheOpcodeTable : decode 0x100000000000000000000000000000009 = .encrypt 9 := by decide

/-- The last byte and its top bit, and the last word. -/
theorem witness_OperandBytesStandMostSignificantFirst :
    (7 < 8 ∧ (blockByte 0x80 15).getLsbD 7 = true) ∧ (31 < 32 ∧ (word 0x80000000 3).getLsbD 31 = true) := by decide

theorem witness_LookupIndexIsTheStaggeredByte : 7 < 8 ∧ src (blockWords 0x00ab000000000000) 1 1 = 0xab := by decide

theorem witness_StepRefusesExactlyBrokenContracts :
    (∃ p rest, (twoSlots [.idle]).stimulus = p :: rest ∧ HostContract p) ∧
    (∃ p rest, ((oneSlot true 0).withStimulus [badPorts]).stimulus = p :: rest ∧ ¬ HostContract p) :=
  ⟨⟨_, _, rfl, by unfold HostContract; decide⟩, _, _, rfl, by unfold HostContract; decide⟩

theorem witness_StepStopsWhenNothingIsDriven : State.reset.stimulus = [] := rfl

theorem witness_StepRunsTheSelectedOperation :
    ∃ p rest, (twoSlots [.encrypt 5]).stimulus = p :: rest ∧ decodePorts p = .ok (.encrypt 5) :=
  ⟨_, _, rfl, by decide⟩

theorem witness_HexDigitsAreInByteOrder : (Line.encrypt (List.replicate 32 (7 : Fin 16))).wellFormed = true := by decide

theorem witness_ResetClearsEveryValidBit : (twoSlots []).slot 2 = some { v := false, d := 2 } := by decide

theorem witness_IdleInvalidatesSlotOneAndShifts :
    2 ≤ 2 ∧ (twoSlots []).slot (2 - 1) = some { v := true, d := 1 } ∧ (twoSlots []).slot 2 = some { v := false, d := 2 } := by
  decide

theorem witness_EncryptLoadsItsResultAndShifts :
    2 ≤ 3 ∧ ∃ s : State, s.slot (3 - 1) = some { v := false, d := 2 } ∧ s.slot 3 = some { v := true, d := 4 } :=
  ⟨by decide, { q1 := { v := true, d := 1 }, later := [{ v := false, d := 2 }, { v := true, d := 4 }], stimulus := [] },
    by decide, by decide⟩

/-- An IDLE leaves slot 1 without a result, and a RESET leaves slot 2 so. -/
theorem witness_DataChangesOnlyWhereAResultEnters :
    (∃ t q, exec .idle (twoSlots []) = .next t ∧ t.slot 1 = some q ∧ q.v = false) ∧
    (∃ t q, exec .reset (twoSlots []) = .next t ∧ t.slot 2 = some q) :=
  ⟨⟨_, _, rfl, rfl, rfl⟩, _, _, rfl, rfl⟩

theorem witness_OutBlockHoldsUntilTheNextResult :
    ∃ t, step ((oneSlot true 6).withFetchWord 136 0) = .next t ∧ t.outValid = false := ⟨_, rfl, rfl⟩

theorem witness_ResetStateHasItsStatedValues : 1 ≤ 1 ∧ 1 ≤ Config.latency := ⟨by decide, by simp [Config.latency]⟩

theorem witness_OneResetCycleBootsFromPowerUp :
    HostContract (vectorPorts (encode .reset)) ∧ (vectorPorts (encode .reset)).rst = some true := by
  unfold HostContract
  decide

theorem witness_ContractStimulusAlwaysRuns :
    2 ≤ (twoSlots [.idle, .encrypt 1]).stimulus.length ∧ ∀ p ∈ (twoSlots [.idle, .encrypt 1]).stimulus, HostContract p := by
  unfold HostContract
  decide

theorem witness_RunIsTheEdgesOfItsOperations : (twoSlots [.encrypt 1, .idle]).Presents [.encrypt 1, .idle] := ⟨[], rfl⟩

/-- An ENCRYPT that comes out, and one that a RESET discards. -/
theorem witness_ResultsAppearExactlyLatencyCyclesLater :
    ([Instr.idle].length + 1 = (twoSlots [.encrypt 1, .idle]).latency ∧
      (twoSlots [.encrypt 1, .idle]).Presents (.encrypt 1 :: [.idle]) ∧ Instr.reset ∉ [Instr.idle]) ∧
    ((twoSlots [.encrypt 1, .reset]).Presents (.encrypt 1 :: [.reset]) ∧ Instr.reset ∈ [Instr.reset]) ∧
    ((oneDriven [.encrypt 1]).Quiet ∧
      (oneDriven [.encrypt 1]).Presents ([.encrypt 1] ++ List.replicate ((oneDriven []).latency - 1) Instr.idle)) :=
  ⟨⟨rfl, ⟨[], rfl⟩, by decide⟩, ⟨⟨[], rfl⟩, by decide⟩, by unfold State.Quiet; decide, ⟨[], rfl⟩⟩

theorem witness_ResultsLeaveInOrderAfterReset :
    Instr.reset ∉ [Instr.encrypt 1, .encrypt 2] ∧
    (twoSlots [.reset, .encrypt 1, .encrypt 2, .idle]).Presents
      (Instr.reset :: [.encrypt 1, .encrypt 2] ++ List.replicate ((twoSlots []).latency - 1) Instr.idle) :=
  ⟨by decide, ⟨[], rfl⟩⟩

/-- Latency 2 beside latency 1. -/
theorem witness_LatencyDoesNotChangeTheResults :
    ((idleEdge (idleEdge (twoSlots [.encrypt 1, .idle]))).latency = 2 ∧ (oneDriven [.encrypt 1]).latency = 1) ∧
    ((resetEdge (twoSlots [.encrypt 1, .idle])).Quiet ∧ (oneDriven [.encrypt 1]).Quiet) ∧ Instr.reset ∉ [Instr.encrypt 1] ∧
    (resetEdge (twoSlots [.encrypt 1, .idle])).Presents ([.encrypt 1] ++ List.replicate (2 - 1) Instr.idle) ∧
    (oneDriven [.encrypt 1]).Presents ([.encrypt 1] ++ List.replicate (1 - 1) Instr.idle) :=
  ⟨⟨rfl, rfl⟩, ⟨quiet_resetEdge _, by unfold State.Quiet; decide⟩, by decide, ⟨[], rfl⟩, ⟨[], rfl⟩⟩

theorem witness_FirstResultAfterReset :
    [Instr.idle].length + 1 = (twoSlots []).latency ∧ Instr.reset ∉ [Instr.idle] ∧
    (twoSlots [.reset, .encrypt 1, .idle]).Presents (.reset :: .encrypt 1 :: [.idle]) :=
  ⟨rfl, by decide, ⟨[], rfl⟩⟩

theorem witness_ResetDiscardsWorkInFlight :
    (∀ B, Instr.encrypt B ∉ [Instr.idle, .reset]) ∧ 2 ≤ [Instr.idle, .reset].length ∧
    (twoSlots [.reset, .idle, .reset]).Presents (.reset :: [.idle, .reset]) :=
  ⟨by simp, by decide, ⟨[], rfl⟩⟩

theorem witness_OneBlockACycleFillsEverySlot :
    ([1, 2] : List Block).length = (twoSlots []).latency ∧ (twoSlots [.encrypt 1, .encrypt 2]).Presents (([1, 2] : List Block).map Instr.encrypt) :=
  ⟨rfl, ⟨[], rfl⟩⟩

/-- Other data, other blocks, other tables. -/
theorem witness_TimingIsIndependentOfDataAndConstants :
    (twoSlots []).valids = ({ q1 := { v := true, d := 8 }, later := [{ v := false, d := 9 }], stimulus := [] } : State).valids ∧
    [Instr.encrypt 1, .idle].map Instr.mnemonic = [Instr.encrypt 2, .idle].map Instr.mnemonic ∧ instShift.rk 1 ≠ instXor.rk 1 := by
  decide +kernel

theorem witness_ResultDependsOnTheBlockAlone :
    (∀ b, instShift.sbox b = instShiftK.sbox b) ∧ (∀ c b, instShift.te c b = instShiftK.te c b) ∧
    (∀ r, instShiftK.rk r = instXor.rk r) := ⟨fun _ => rfl, fun _ _ => rfl, fun _ => rfl⟩

/-- Cut after S_0, after S_4 and after OUT. -/
theorem witness_StagedPipelineIsIndistinguishableAtThePorts :
    StagedState.wf { q1 := { done := 1, v := true, d := 4 },
                     later := [{ done := 5, v := false, d := 5 }, { done := 11, v := true, d := 6 }] } = true := by decide

/-- LATENCY slots, all of them with the result of the zero block. -/
def fullState (inputs : List Ports) : State :=
  { q1 := { v := true, d := enc Config.tables 0 },
    later := List.replicate Config.extraSlots { v := true, d := enc Config.tables 0 }, stimulus := inputs }

theorem fullState_inv (inputs : List Ports) : (fullState inputs).Inv := by
  refine ⟨by simp [State.latency, fullState, Config.latency], fun q hq _ => ⟨0, ?_⟩⟩
  simp only [State.slots, fullState, List.mem_cons, List.mem_replicate] at hq
  rcases hq with rfl | ⟨-, rfl⟩ <;> rfl

theorem witness_EveryStepKeepsTheInvariant :
    (fullState [vectorPorts 0]).Inv ∧ ∃ t, step (fullState [vectorPorts 0]) = .next t :=
  ⟨fullState_inv _, _, rfl⟩

theorem witness_NoPartialResultIsEverShown :
    (fullState []).Inv ∧ Host.Core.run Sys2Proof.core 0 (fullState []) = .next (fullState []) ∧
    (fullState []).outValid = true := by
  refine ⟨fullState_inv _, rfl, ?_⟩
  have h := List.mem_of_getLast? (getLast?_slots (fullState []))
  simp only [State.slots, fullState, List.mem_cons, List.mem_replicate] at h
  rw [State.outValid]
  rcases h with h | ⟨-, h⟩ <;> exact congrArg Slot.v h

theorem witness_WhiteningXorsRoundKeyZero : (0xab : Block) = (instAes (keysOf [0xab])).rk 0 ∧ instShift.rk 0 = 0 := ⟨rfl, rfl⟩

theorem witness_MainRoundXorsFourLookupsAndTheKey : (∀ c b, instXor.te c b = 0) ∧ instShift.rk 9 = 0 :=
  ⟨fun _ _ => rfl, rfl⟩

theorem witness_FinalRoundSubstitutesAndXorsBytewise : (∀ b, instShift.sbox b = b) ∧ instShift.rk 10 = 0 :=
  ⟨fun _ => rfl, rfl⟩

/-- Words that differ in byte 3 of word 2 only, and an output word that is not 2 - 3 = 3. -/
theorem witness_MainRoundByteLanes :
    (∀ w' j', (w', j') ≠ ((2 : Fin 4), (3 : Fin 4)) →
      wordByte ((blockWords 0).get w') j' = wordByte ((blockWords 0xff00000000).get w') j') ∧ (0 : Fin 4) ≠ 2 - 3 := by decide

theorem witness_MainRoundAsExplicitPermutation :
    ∀ i j, wordByte ((blockWords 0x00050a0f04090e03080d02070c01060b).get i) j
      = wordByte ((blockWords 0x000102030405060708090a0b0c0d0e0f).get (i + j)) j := by decide

theorem witness_RoundTermsMayBeXoredInAnyOrder (T : Tables) (t : Words) :
    [roundKeyWord T 9 3, teLookup T 3 (src t 3 3), teLookup T 2 (src t 3 2), teLookup T 1 (src t 3 1), teLookup T 0 (src t 3 0)].Perm
      [teLookup T 0 (src t 3 0), teLookup T 1 (src t 3 1), teLookup T 2 (src t 3 2), teLookup T 3 (src t 3 3), roundKeyWord T 9 3] :=
  List.reverse_perm
    [teLookup T 0 (src t 3 0), teLookup T 1 (src t 3 1), teLookup T 2 (src t 3 2), teLookup T 3 (src t 3 3), roundKeyWord T 9 3]

/-- Two keys that agree in byte 15, and the last byte of the last word with an injective SBox. -/
theorem witness_FinalRoundDoesNotDiffuse :
    ((∀ b, instShift.sbox b = instShiftK.sbox b) ∧
      blockByte ((keysOf (List.replicate 11 0x1aa)) 10) 15 = blockByte ((keysOf (List.replicate 11 0x2aa)) 10) 15) ∧
    (∀ w' j', (w', j') ≠ ((3 : Fin 4), (3 : Fin 4)) →
      wordByte ((blockWords 0).get w') j' = wordByte ((blockWords 0xff).get w') j') ∧
    (∀ a b, instShift.sbox a = instShift.sbox b → a = b) ∧
    wordByte ((blockWords 0).get 3) 3 ≠ wordByte ((blockWords 0xff).get 3) 3 :=
  ⟨⟨fun _ => rfl, by decide⟩, by decide, fun _ _ h => h, by decide⟩

/-- Instances that share what one stage reads and differ elsewhere. -/
theorem witness_EachStageReadsItsOwnConstants :
    instShift.rk 0 = instXor.rk 0 ∧ (∀ c b, instShiftK.te c b = instShift.te c b) ∧ instShiftK.rk 9 = instXor.rk 9 ∧
    (∀ b, instShiftK.sbox b = instXor.sbox b) ∧ instShiftK.rk 10 = instXor.rk 10 :=
  ⟨by decide +kernel, fun _ _ => rfl, rfl, fun _ => rfl, rfl⟩

theorem witness_ViewsAgreeOnEveryByte : ∀ k, blockByte 0xab k = blockByte (0xaa ^^^ 0x01) k := by decide

theorem witness_AesTablesFuseSubstitutionAndMixColumns : TablesAreAES instFips := ⟨rfl, rfl⟩

end Sys2Proof.Tests
end

section
/-! The stagger as a byte of the 128-bit stage value (spec/00_scope.md R12, spec/30_encoding.md R60). -/

namespace Sys2Proof.Machine

/-- In the byte order of R9, the staggered byte is one of the sixteen bytes of the stage value. -/
theorem src_eq_blockByte_wordsBlock (t : Words) (i j : Fin 4) :
    src t i j = blockByte (wordsBlock t) (bytePos (i + j) j) :=
  (blockByte_wordsBlock t (i + j) j).symm

/-- R58's position of that byte, as the bit offset that R60 counts by word and column. -/
theorem bytePos_add_lowBit (i j : Fin 4) :
    120 - 8 * (bytePos (i + j) j).val = 120 - 32 * ((i.val + j.val) % 4) - 8 * j.val := by
  simp only [bytePos, Fin.val_add]
  omega

/-- Settles O8: the stagger is the model's `src`, and its bits are those of block byte `4((i + j) mod 4) + j`. -/
theorem lookupIndexIsTheStaggeredByte : Obligations.LookupIndexIsTheStaggeredByte := by
  intro t i j n hn
  refine ⟨rfl, ?_⟩
  rw [src_eq_blockByte_wordsBlock, getLsbD_blockByte, bytePos_add_lowBit]
  simp only [hn, decide_true, Bool.true_and]

end Sys2Proof.Machine
end

section
/-! The output vector by bits and bytes (spec/10_state.md R25, spec/30_encoding.md R54, R59). -/

namespace Sys2Proof.Machine

/-- `O[128]` is `out_valid` (R54). -/
theorem getLsbD_outVector_valid (s : State) : s.outVector.getLsbD 128 = s.outValid := by
  rw [State.outVector, BitVec.getLsbD_append, if_neg (by decide)]
  exact BitVec.getLsbD_ofBool s.outValid 0

/-- `O[127:0]` is `out_block` (R54). -/
theorem getLsbD_outVector_block (s : State) {n : Nat} (hn : n < 128) :
    s.outVector.getLsbD n = s.outBlock.getLsbD n := by
  rw [State.outVector, BitVec.getLsbD_append, if_pos hn]

/-- Byte k of `out_block` stands in `O[127 - 8k : 120 - 8k]` (R54, R59). -/
theorem extractLsb'_outVector (s : State) (k : Fin 16) :
    s.outVector.extractLsb' (120 - 8 * k.val) 8 = blockByte s.outBlock k := by
  refine BitVec.eq_of_getLsbD_eq fun n hn => ?_
  rw [BitVec.getLsbD_extractLsb', getLsbD_blockByte, getLsbD_outVector_block s (by omega)]

theorem outVector_withStimulus (s : State) (ps : List Ports) : (s.withStimulus ps).outVector = s.outVector := rfl

/-- Settles O7: the last slot is `Q[LATENCY]`, and the output vector is its valid bit followed by its sixteen bytes. -/
theorem outputVectorShowsTheLastSlot : Obligations.OutputVectorShowsTheLastSlot := fun s =>
  ⟨s.outSlot, slot_latency s, getLsbD_outVector_valid s, extractLsb'_outVector s, rfl, rfl, outVector_withStimulus s⟩

end Sys2Proof.Machine
end

section
/-! The staged pipeline simulates CORE's slots (spec/10_state.md R30, spec/44_operations.md R99): the results that follow
from its registers take the same clock edges as the slots, because what moves on between two registers keeps its result. -/

namespace Sys2Proof.Machine

/-- The pipeline registers, first to last, as `State.slots` for CORE. -/
def StagedState.slots (s : StagedState) : List StagedSlot := s.q1 :: s.later

/-- Where the registers cut the datapath: the number of stages done before each. -/
def StagedState.cuts (s : StagedState) : List Nat := s.slots.map StagedSlot.done

/-- The last cut is that of the output register (R25). -/
theorem StagedState.getLast?_cuts (s : StagedState) : s.cuts.getLast? = some (s.later.getLastD s.q1).done := by
  simp [StagedState.cuts, StagedState.slots, List.getLast?_cons, List.getLastD_eq_getLast?, Option.getD_map]

/-- A well-formed staged state is one whose cuts are in datapath order and end after all eleven stages. -/
theorem StagedState.wf_iff_cuts (s : StagedState) :
    s.wf = true ↔ s.cuts.Pairwise (· ≤ ·) ∧ s.cuts.getLast? = some 11 := by
  rw [s.getLast?_cuts, StagedState.cuts, StagedState.slots, List.pairwise_map]
  simp only [StagedState.wf, Bool.and_eq_true, decide_eq_true_eq, beq_iff_eq, Option.some.injEq]

theorem StagedState.done_le_of_wf {s : StagedState} (h : s.wf = true) : ∀ q ∈ s.slots, q.done ≤ 11 := by
  intro q hq
  obtain ⟨hsorted, hlast⟩ := s.wf_iff_cuts.mp h
  have hle := hsorted.rel_getLast (List.mem_map_of_mem hq)
  rwa [List.getLast_of_getLast?_eq_some hlast] at hle

/-! ### The cuts are fixed -/

theorem map_done_stagedShift (T : Tables) (prev : StagedSlot) (l : List StagedSlot) :
    (stagedShift T prev l).map StagedSlot.done = l.map StagedSlot.done := by
  induction l generalizing prev with
  | nil => rfl
  | cons q rest ih => simp [stagedShift, ih]

theorem cuts_stagedEdge (T : Tables) (i : Instr) (s : StagedState) : (stagedEdge T i s).cuts = s.cuts := by
  cases i with
  | reset => simp [stagedEdge, StagedState.cuts, StagedState.slots]
  | idle => simp [stagedEdge, StagedState.cuts, StagedState.slots, map_done_stagedShift]
  | encrypt B => simp [stagedEdge, StagedState.cuts, StagedState.slots, map_done_stagedShift]

theorem wf_stagedEdge (T : Tables) (i : Instr) {s : StagedState} (h : s.wf = true) : (stagedEdge T i s).wf = true := by
  rw [StagedState.wf_iff_cuts, cuts_stagedEdge, ← StagedState.wf_iff_cuts]
  exact h

/-! ### The result of a register -/

/-- The stages up to a cut and the stages after it are all the stages up to 11. -/
theorem stagesFrom_via (T : Tables) {a b : Nat} (hab : a ≤ b) (hb : b ≤ 11) (x : Block) :
    stagesFrom T b (11 - b) (stagesFrom T a (b - a) x) = stagesFrom T a (11 - a) x := by
  have hcount : 11 - a = (b - a) + (11 - b) := by omega
  have hcut : a + (b - a) = b := by omega
  rw [hcount, stagesFrom_add, hcut]

/-- A register after all eleven stages holds its own result. -/
theorem result_of_done (T : Tables) {q : StagedSlot} (h : q.done = 11) : q.result T = { v := q.v, d := q.d } := by
  rw [StagedSlot.result, h]
  rfl

theorem result_invalidate (T : Tables) (q : StagedSlot) :
    StagedSlot.result T { q with v := false } = (q.result T).invalidate := rfl

/-- A block that enters the first register has its encryption as result. -/
theorem result_encrypt (T : Tables) {q : StagedSlot} (h : q.done ≤ 11) (B : Block) :
    StagedSlot.result T { q with v := true, d := stagesFrom T 0 q.done B } = { v := true, d := enc T B } := by
  have hB := stagesFrom_via T (Nat.zero_le q.done) h B
  rw [Nat.sub_zero, stagesFrom_all] at hB
  rw [StagedSlot.result, hB]

/-- What moves on keeps its result, so a shift of the registers is R93's shift of the results. -/
theorem result_shiftIn (T : Tables) {p q : StagedSlot} (hpq : p.done ≤ q.done) (hq : q.done ≤ 11) :
    StagedSlot.result T
        { q with v := p.v, d := if p.v then stagesFrom T p.done (q.done - p.done) p.d else q.d } =
      (q.result T).shiftIn (p.result T) := by
  rcases p with ⟨a, _ | _, d⟩
  · rfl
  · simp [StagedSlot.result, Slot.shiftIn, stagesFrom_via T hpq hq]

theorem map_result_stagedShift (T : Tables) {prev : StagedSlot} {l : List StagedSlot}
    (hsorted : (prev :: l).Pairwise fun a b => a.done ≤ b.done) (hle : ∀ q ∈ l, q.done ≤ 11) :
    (stagedShift T prev l).map (StagedSlot.result T) = shiftSlots (prev.result T) (l.map (StagedSlot.result T)) := by
  induction l generalizing prev with
  | nil => rfl
  | cons q rest ih =>
    obtain ⟨hprev, htail⟩ := List.pairwise_cons.mp hsorted
    obtain ⟨hq, hrest⟩ := List.forall_mem_cons.mp hle
    simp only [stagedShift, List.map_cons, shiftSlots, ih htail hrest,
      result_shiftIn T (hprev q List.mem_cons_self) hq]

/-! ### The simulation -/

/-- One edge of the staged design is the same edge of CORE's slots. -/
theorem result_stagedEdge (T : Tables) (i : Instr) {s : StagedState} (h : s.wf = true) :
    (stagedEdge T i s).result T = edge T i (s.result T) := by
  obtain ⟨hq1, hlater⟩ := List.forall_mem_cons.mp (StagedState.done_le_of_wf h)
  have hshift := map_result_stagedShift T (List.pairwise_map.mp (s.wf_iff_cuts.mp h).1) hlater
  cases i with
  | reset => simp [stagedEdge, StagedState.result, resetEdge, result_invalidate, Function.comp_def]
  | idle => simp [stagedEdge, StagedState.result, idleEdge, State.advance, result_invalidate, hshift]
  | encrypt B => simp [stagedEdge, StagedState.result, encryptEdge, State.advance, result_encrypt T hq1, hshift]

/-- The ports show the last register, which holds its own result. -/
theorem outVector_result (T : Tables) {s : StagedState} (h : s.wf = true) :
    (s.result T).outVector = s.outVector := by
  have hlast : (s.later.getLastD s.q1).done = 11 := by
    simpa [StagedState.getLast?_cuts] using (s.wf_iff_cuts.mp h).2
  have hout : (s.result T).outSlot = (s.later.getLastD s.q1).result T := by
    simp [State.outSlot, StagedState.result, List.getLastD_eq_getLast?, Option.getD_map]
  rw [State.outVector, State.outValid, State.outBlock, hout, result_of_done T hlast, StagedState.outVector]

/-- Settles O32, by induction on the operations: each edge keeps the cuts and commutes with taking results. -/
theorem stagedPipelineIsIndistinguishableAtThePorts : Obligations.StagedPipelineIsIndistinguishableAtThePorts := by
  intro T s ops h
  induction ops generalizing s with
  | nil => exact (outVector_result T h).symm
  | cons i ops ih => rw [List.foldl_cons, edges_cons, ← result_stagedEdge T i h, ih _ (wf_stagedEdge T i h)]

end Sys2Proof.Machine
end

section
/-! The datapath commutes with the change from the word view to the byte view (spec/20_memory.md R45, R49): each stage is
one square, read at block byte `4i + j`, and the stages compose. -/

namespace Sys2Proof.Machine

/-! ### The views of one value -/

/-- Byte sequences are told apart by their bytes at word i, byte j (R45). -/
theorem bytes_ext_bytePos {a b : Bytes} (h : ∀ i j, a.get (bytePos i j) = b.get (bytePos i j)) : a = b := by
  refine bytes_ext fun k => ?_
  obtain ⟨i, j, rfl⟩ := exists_bytePos k
  exact h i j

@[simp] theorem wordOfBytes_wordByte (w : Word) : wordOfBytes (wordByte w) = w :=
  word_ext fun j => wordByte_wordOfBytes (wordByte w) j

@[simp] theorem bytesBlock_blockBytes (B : Block) : bytesBlock (blockBytes B) = B :=
  block_ext fun k => (blockByte_bytesBlock (blockBytes B) k).trans (get_blockBytes B k)

@[simp] theorem blockBytes_bytesBlock (b : Bytes) : blockBytes (bytesBlock b) = b :=
  bytes_ext fun k => (get_blockBytes (bytesBlock b) k).trans (blockByte_bytesBlock b k)

/-! ### The stages in both views -/

/-- A main-round byte in the byte view is that byte of the word view's round word (R79). -/
theorem roundByte_wordsBytes (T : Tables) (r : Fin 11) (t : Words) (i j : Fin 4) :
    roundByte T r (wordsBytes t) (bytePos i j) = wordByte (roundWord T r t i) j := by
  rw [wordByte_roundWord]
  simp only [roundByte, teLookup, srcByte_wordsBytes, byteIndex_bytePos]

theorem whitenBytes_blockBytes (T : Tables) (B : Block) : whitenBytes T (blockBytes B) = wordsBytes (whiten T B) := by
  refine bytes_ext_bytePos fun i j => ?_
  rw [get_whitenBytes, get_blockBytes, get_wordsBytes, get_whiten, wordByte_xor, blockByte_bytePos, blockByte_bytePos]

theorem mainRoundBytes_wordsBytes (T : Tables) (r : Fin 11) (t : Words) :
    mainRoundBytes T r (wordsBytes t) = wordsBytes (mainRound T r t) := by
  refine bytes_ext_bytePos fun i j => ?_
  rw [get_mainRoundBytes, roundByte_wordsBytes, get_wordsBytes, get_mainRound]

theorem finalRoundBytes_wordsBytes (T : Tables) (t : Words) :
    finalRoundBytes T (wordsBytes t) = blockBytes (finalRound T t) := by
  refine bytes_ext_bytePos fun i j => ?_
  rw [get_finalRoundBytes, srcByte_wordsBytes, byteIndex_bytePos, get_blockBytes, blockByte_finalRound]

/-- The main rounds fold the same list in both views, so their squares compose (R21, R77). -/
theorem stageBytes_blockBytes (T : Tables) (B : Block) (r : Nat) :
    stageBytes T (blockBytes B) r = wordsBytes (stage T B r) := by
  rw [stageBytes, stage, whitenBytes_blockBytes]
  exact List.foldl_hom wordsBytes fun t k => mainRoundBytes_wordsBytes T k t

theorem encBytes_blockBytes (T : Tables) (B : Block) : encBytes T (blockBytes B) = blockBytes (enc T B) := by
  rw [encBytes, stageBytes_blockBytes, finalRoundBytes_wordsBytes, enc]

/-- Settles O46: every view names the same bits, and every stage is the same function in the word and the byte view. -/
theorem viewsAgreeOnEveryByte : Obligations.ViewsAgreeOnEveryByte :=
  ⟨blockByte_bytePos, wordsBlock_blockWords, blockWords_wordsBlock, word_xor, blockByte_xor, wordByte_xor,
    fun _ _ => block_ext, wordOfBytes_wordByte, wordByte_wordOfBytes, get_blockBytes, bytesBlock_blockBytes,
    blockBytes_bytesBlock, get_wordsBytes, whitenBytes_blockBytes, mainRoundBytes_wordsBytes,
    finalRoundBytes_wordsBytes, stageBytes_blockBytes, encBytes_blockBytes⟩

end Sys2Proof.Machine
end

section
/-! The opcode table against the decoder (spec/30_encoding.md R55 to R57, R62): a row selects exactly the vectors that
decode to its mnemonic, and no two rows share a mnemonic. -/

namespace Sys2Proof

/-- Settles O2: decoding a packed vector asks for `rst` first, then for `in_valid`. -/
theorem portBitsSelectTheOperation : Obligations.PortBitsSelectTheOperation :=
  ⟨decode_packVector true, decode_packVector false false, decode_packVector false true⟩

/-- Only an ENCRYPT has an operand, and it is `in_block` (R57, R58). -/
theorem decode_eq_encrypt_iff (I : CycleVector) (B : Block) :
    decode I = .encrypt B ↔ vectorRst I = false ∧ vectorInValid I = true ∧ vectorInBlock I = B := by
  cases hr : vectorRst I <;> cases hv : vectorInValid I <;> simp [decode, hr, hv]

/-- The mnemonic that the decoder reads, by the two selecting bits. -/
theorem mnemonic_decode (I : CycleVector) :
    (decode I).mnemonic = if vectorRst I then "RESET" else if vectorInValid I then "ENCRYPT" else "IDLE" := by
  cases hr : vectorRst I <;> cases hv : vectorInValid I <;> simp [decode, hr, hv, Instr.mnemonic]

/-- Match and mask of a row select exactly the vectors that decode to the row's operation. -/
theorem selects_iff_mnemonic (I : CycleVector) :
    ∀ row ∈ opcodeTable, row.selects I = true ↔ (decode I).mnemonic = row.mnemonic := by
  rw [mnemonic_decode]
  refine List.forall_mem_cons.2 ⟨(Bool.eq_iff_iff.1 (selects_reset I)).trans ?_,
    List.forall_mem_cons.2 ⟨(Bool.eq_iff_iff.1 (selects_idle I)).trans ?_,
      List.forall_mem_singleton.2 ((Bool.eq_iff_iff.1 (selects_encrypt I)).trans ?_)⟩⟩
  all_goals cases vectorRst I <;> cases vectorInValid I <;> decide

/-- The mnemonics tell the rows apart. -/
theorem opcodeTable_mnemonic_injective :
    ∀ row ∈ opcodeTable, ∀ row' ∈ opcodeTable, row.mnemonic = row'.mnemonic → row = row' := by
  decide

/-- Every operation has its row. -/
theorem opcodeRowOf_statement : ∀ i : Instr, Laws.OpcodeRowOf.Statement i
  | .reset => Laws.OpcodeRowOf.reset
  | .idle => Laws.OpcodeRowOf.idle
  | .encrypt block => Laws.OpcodeRowOf.encrypt block

/-- Settles O3: the selecting row is the one with the decoded operation's mnemonic. -/
theorem decodingIsTotalAndFollowsTheOpcodeTable : Obligations.DecodingIsTotalAndFollowsTheOpcodeTable := by
  refine ⟨fun I => ?_, fun B => ⟨packVector false true B, decode_packVector false true B⟩⟩
  obtain ⟨row, hrow, hmnemonic, -⟩ := opcodeRowOf_statement (decode I)
  refine ⟨row, hrow, fun row' hrow' => ?_, hmnemonic.symm, fun B hB => ?_⟩
  · rw [selects_iff_mnemonic I row' hrow', ← hmnemonic]
    constructor
    · exact fun h => opcodeTable_mnemonic_injective row' hrow' row hrow h.symm
    · rintro rfl
      rfl
  · obtain ⟨-, -, hblock⟩ := (decode_eq_encrypt_iff I B).1 hB
    exact hblock.symm

end Sys2Proof
end

section
/-! Where the bytes of the operand stand, in its bits, its words and its hexadecimal digits (spec/30_encoding.md R58,
R66). -/

namespace Sys2Proof.Machine

/-- Settles O6: bytes and words are bit ranges of the block, and a word is its four bytes. -/
theorem operandBytesStandMostSignificantFirst : Obligations.OperandBytesStandMostSignificantFirst := by
  refine ⟨decode_packVector false true, fun B k n hn => ?_, fun B i => ?_, fun B i n hn => ?_⟩
  · rw [getLsbD_blockByte, decide_eq_true hn, Bool.true_and]
  · simp only [blockByte_bytePos]
    exact (wordOfBytes_wordByte (word B i)).symm
  · rw [getLsbD_word, decide_eq_true hn, Bool.true_and]

/-! ### Digits -/

/-- Byte k as a number: it follows 120 - 8k lower bits (R9). -/
theorem toNat_blockByte (B : Block) (k : Fin 16) :
    (blockByte B k).toNat = B.toNat / 2 ^ (120 - 8 * k.val) % 256 := by
  rw [blockByte, BitVec.extractLsb'_toNat, Nat.shiftRight_eq_div_pow]

/-- The digits of a line, last first, are the base-16 digits of its block's number, lowest first (R66). -/
theorem digitsBlock_eq_ofDigits (digits : List (Fin 16)) :
    digitsBlock digits = BitVec.ofNat 128 (Nat.ofDigits 16 (digits.map Fin.val).reverse) := by
  rw [digitsBlock, Nat.ofDigits_eq_foldr, List.foldr_reverse, List.foldl_map]
  simp [add_comm]

theorem ofDigits_reverse_lt (digits : List (Fin 16)) :
    Nat.ofDigits 16 (digits.map Fin.val).reverse < 16 ^ digits.length := by
  have h : ∀ d ∈ (digits.map Fin.val).reverse, d < 16 := by simp
  simpa using Nat.ofDigits_lt_base_pow_length (by decide) h

/-- 32 digits fill the 128 bits: nothing is cut off. -/
theorem toNat_digitsBlock {digits : List (Fin 16)} (h : digits.length = 32) :
    (digitsBlock digits).toNat = Nat.ofDigits 16 (digits.map Fin.val).reverse := by
  have hlt := ofDigits_reverse_lt digits
  rw [h, show 16 ^ 32 = 2 ^ 128 from rfl] at hlt
  rw [digitsBlock_eq_ofDigits, BitVec.toNat_ofNat, Nat.mod_eq_of_lt hlt]

/-- Dividing the digits after a pair away leaves a number that ends in the pair. -/
theorem ofDigits_pair_div (before after : List (Fin 16)) (hi lo : Fin 16) :
    Nat.ofDigits 16 ((before ++ hi :: lo :: after).map Fin.val).reverse / 16 ^ after.length % 256 =
      16 * hi.val + lo.val := by
  have hafter := ofDigits_reverse_lt after
  have hsplit : ((before ++ hi :: lo :: after).map Fin.val).reverse =
      (after.map Fin.val).reverse ++ lo.val :: hi.val :: (before.map Fin.val).reverse := by simp
  rw [hsplit, Nat.ofDigits_append, Nat.ofDigits_cons, Nat.ofDigits_cons, List.length_reverse, List.length_map,
    Nat.add_mul_div_left _ _ (by positivity), Nat.div_eq_of_lt hafter]
  omega

/-- The pair of digits that has 2k digits before it, of 32, is byte k of the block. -/
theorem blockByte_digitsBlock {before after : List (Fin 16)} (hi lo : Fin 16) {k : Fin 16}
    (hbefore : before.length = 2 * k.val) (hafter : after.length = 30 - 2 * k.val) :
    (blockByte (digitsBlock (before ++ hi :: lo :: after)) k).toNat = 16 * hi.val + lo.val := by
  have hlength : (before ++ hi :: lo :: after).length = 32 := by
    simp only [List.length_append, List.length_cons]
    omega
  have hpow : 2 ^ (120 - 8 * k.val) = 16 ^ after.length := by
    rw [hafter, show 120 - 8 * k.val = 4 * (30 - 2 * k.val) by omega, pow_mul]
    rfl
  rw [toNat_blockByte, toNat_digitsBlock hlength, hpow, ofDigits_pair_div]

/-- Settles O12: digits 2k and 2k + 1 are the pair of byte k. -/
theorem hexDigitsAreInByteOrder : Obligations.HexDigitsAreInByteOrder := by
  intro digits k hwf
  have hlength : digits.length = 32 := by simpa [Line.wellFormed] using hwf
  have hhi : 2 * k.val < digits.length := by omega
  have hlo : 2 * k.val + 1 < digits.length := by omega
  refine ⟨digits[2 * k.val], digits[2 * k.val + 1], List.getElem?_eq_getElem hhi, List.getElem?_eq_getElem hlo, ?_⟩
  have hsplit : digits = digits.take (2 * k.val) ++
      digits[2 * k.val] :: digits[2 * k.val + 1] :: digits.drop (2 * k.val + 2) := by
    rw [← List.drop_eq_getElem_cons hlo, ← List.drop_eq_getElem_cons hhi, List.take_append_drop]
  conv_lhs => rw [hsplit]
  refine blockByte_digitsBlock _ _ ?_ ?_
  · rw [List.length_take, min_eq_left hhi.le]
  · rw [List.length_drop, hlength]
    omega

end Sys2Proof.Machine
end

section
/-! Whitening is the XOR of the whole block with round key 0 (spec/41_whitening.md R72, R73). -/

namespace Sys2Proof.Machine

/-- The four word XORs of R72 are one XOR of the 128 bits. -/
theorem wordsBlock_whiten (T : Tables) (B : Block) : wordsBlock (whiten T B) = B ^^^ T.rk 0 := by
  refine block_ext_words fun i => ?_
  rw [word_wordsBlock, get_whiten, word_xor]

/-- Settles O37: word i is R72's equation, and the other parts are laws of the XOR with round key 0. -/
theorem whiteningXorsRoundKeyZero : Obligations.WhiteningXorsRoundKeyZero := by
  intro T B
  simp only [wordsBlock_whiten]
  refine ⟨get_whiten T B, blockByte_xor B (T.rk 0), ?inverse, ?ownKey, ?zeroKey⟩
  case inverse => rw [BitVec.xor_assoc, BitVec.xor_self, BitVec.xor_zero]
  case ownKey =>
    rintro rfl
    exact BitVec.xor_self
  case zeroKey =>
    intro hkey
    rw [hkey]
    exact BitVec.xor_zero

end Sys2Proof.Machine
end

section
/-! Each stage of the datapath depends on its own constants only (spec/41_whitening.md R74, spec/42_main_round.md R77,
spec/43_final_round.md R82). -/

namespace Sys2Proof.Machine

variable {T T' : Tables}

theorem whiten_congr_tables (hkey : T.rk 0 = T'.rk 0) (B : Block) : whiten T B = whiten T' B := by
  refine words_ext fun i => ?_
  rw [get_whiten, get_whiten, hkey]

theorem mainRound_congr_tables {r : Fin 11} (hte : ∀ c b, T.te c b = T'.te c b) (hkey : T.rk r = T'.rk r) (t : Words) :
    mainRound T r t = mainRound T' r t := by
  refine words_ext fun i => word_ext fun k => ?_
  simp only [get_mainRound, wordByte_roundWord, hte, hkey]

theorem finalRound_congr_tables (hsbox : ∀ b, T.sbox b = T'.sbox b) (hkey : T.rk 10 = T'.rk 10) (t : Words) :
    finalRound T t = finalRound T' t := by
  refine block_ext fun k => ?_
  obtain ⟨i, j, rfl⟩ := exists_bytePos k
  rw [blockByte_finalRound, blockByte_finalRound, hsbox, hkey]

/-- Settles O45: instances that share a stage's constants share that stage. -/
theorem eachStageReadsItsOwnConstants : Obligations.EachStageReadsItsOwnConstants := fun _ _ B t _ =>
  ⟨fun hkey => whiten_congr_tables hkey B, fun hte hkey => mainRound_congr_tables hte hkey t,
    fun hsbox hkey => finalRound_congr_tables hsbox hkey t⟩

end Sys2Proof.Machine
end

section
/-! A main round by words, by bytes and by source positions (spec/42_main_round.md R75 to R81). -/

namespace Sys2Proof.Machine

/-- Column 0 is not staggered: the whole difference between R76's formula and `roundWord`. -/
theorem src_zero (t : Words) (i : Fin 4) : src t i 0 = wordByte (t.get i) 0 := by
  rw [src, add_zero]

/-- R76's formula, each byte named by its word and column. -/
theorem get_mainRound_eq_xor (T : Tables) (r : Fin 11) (t : Words) (i : Fin 4) :
    (mainRound T r t).get i =
      T.te 0 (wordByte (t.get i) 0) ^^^ T.te 1 (wordByte (t.get (i + 1)) 1) ^^^ T.te 2 (wordByte (t.get (i + 2)) 2)
        ^^^ T.te 3 (wordByte (t.get (i + 3)) 3) ^^^ word (T.rk r) i := by
  rw [get_mainRound, roundWord, src_zero]
  rfl

@[simp] theorem word_zero (i : Fin 4) : word 0 i = 0 := BitVec.extractLsb'_zero

theorem wordsBlock_mainRound_of_te_zero {T : Tables} (hte : ∀ c b, T.te c b = 0) (r : Fin 11) (t : Words) :
    wordsBlock (mainRound T r t) = T.rk r := by
  refine block_ext_words fun i => ?_
  rw [word_wordsBlock, get_mainRound_eq_xor]
  simp only [hte, BitVec.xor_self, BitVec.zero_xor]

/-- Settles O38: R76's formula, and what is left of it when the tables or the round key are zero. -/
theorem mainRoundXorsFourLookupsAndTheKey : Obligations.MainRoundXorsFourLookupsAndTheKey := by
  intro T r t
  refine ⟨get_mainRound_eq_xor T r t, fun hte => wordsBlock_mainRound_of_te_zero hte r t, fun hkey i => ?_⟩
  rw [get_mainRound_eq_xor, hkey, word_zero]
  exact BitVec.xor_zero

/-! ### Byte lanes (R79) -/

/-- Byte k of R76's formula, the key's byte first as R79 writes it. -/
theorem wordByte_get_mainRound (T : Tables) (r : Fin 11) (t : Words) (i k : Fin 4) :
    wordByte ((mainRound T r t).get i) k =
      blockByte (T.rk r) (bytePos i k) ^^^ wordByte (T.te 0 (wordByte (t.get i) 0)) k
        ^^^ wordByte (T.te 1 (wordByte (t.get (i + 1)) 1)) k ^^^ wordByte (T.te 2 (wordByte (t.get (i + 2)) 2)) k
        ^^^ wordByte (T.te 3 (wordByte (t.get (i + 3)) 3)) k := by
  rw [get_mainRound_eq_xor, BitVec.xor_comm _ (word (T.rk r) i)]
  simp only [wordByte_xor, blockByte_bytePos, BitVec.xor_assoc]

/-- Output word i reads byte j of word w only when `i = w - j`: in any other word, the byte that column c reads is one that
the two values share. -/
theorem src_congr_of_ne {t t' : Words} {w j i : Fin 4}
    (h : ∀ w' j', (w', j') ≠ (w, j) → wordByte (t.get w') j' = wordByte (t'.get w') j') (hi : i ≠ w - j) (c : Fin 4) :
    src t i c = src t' i c := by
  refine h (i + c) c fun heq => hi ?_
  obtain ⟨hw, rfl⟩ := Prod.mk.inj heq
  exact eq_sub_of_add_eq hw

/-- Settles O39: the byte lanes of R76's formula, and each source byte stands in the lookups of one output word. -/
theorem mainRoundByteLanes : Obligations.MainRoundByteLanes := by
  refine ⟨wordByte_get_mainRound, fun T r t t' w j i h hi => ?_⟩
  rw [get_mainRound, get_mainRound]
  exact roundWord_congr T r (src_congr_of_ne h hi)

/-! ### The permutation of the source bytes (R75, R81) -/

/-- The cells of R75's table, row by row, are the positions `4((i + j) mod 4) + j`. -/
theorem staggerTable_getElem? : ∀ i j : Fin 4,
    ([0, 5, 10, 15, 4, 9, 14, 3, 8, 13, 2, 7, 12, 1, 6, 11] : List (Fin 16))[(bytePos i j).val]? =
      some (bytePos (i + j) j) := by
  decide

/-- Settles O40: the table's cells are the block positions of the staggered bytes. -/
theorem staggerTableCells : Obligations.StaggerTableCells := fun t i j =>
  ⟨bytePos (i + j) j, staggerTable_getElem? i j, src_eq_blockByte_wordsBlock t i j⟩

/-- Settles O41: the stagger of S reads each byte of P in place. -/
theorem mainRoundAsExplicitPermutation : Obligations.MainRoundAsExplicitPermutation := by
  intro T r S P hP i
  have hsrc : ∀ j, src S i j = wordByte (P.get i) j := fun j => (hP i j).symm
  simp only [get_mainRound, roundWord, teLookup, hsrc]

end Sys2Proof.Machine
end

section
/-! Under `INST_SHIFT` every round is the byte permutation P of R81, so ENC is P ten times, and P has order 4
(spec/93_implementation_defined.md T1). -/

namespace Sys2Proof.Machine

/-- The byte permutation P of R81, by words. -/
def permuteWords (t : Words) : Words := ofWords fun i => wordOfBytes (src t i)

@[simp] theorem wordByte_permuteWords (t : Words) (i j : Fin 4) : wordByte ((permuteWords t).get i) j = src t i j := by
  simp [permuteWords]

/-- Each P moves byte j of a word j words on, so n of them move it `n * j` words on. -/
theorem wordByte_iterate_permuteWords (n : Nat) (t : Words) (i j : Fin 4) :
    wordByte ((permuteWords^[n] t).get i) j = wordByte (t.get (i + n • j)) j := by
  induction n generalizing i with
  | zero => rw [Function.iterate_zero_apply, zero_nsmul, add_zero]
  | succ n ih => rw [Function.iterate_succ_apply', wordByte_permuteWords, src, ih, succ_nsmul', add_assoc]

/-- P has order 4 (T1). -/
theorem add_four_times : ∀ i j : Fin 4, i + j + j + j + j = i := by
  decide

/-! ### The stages of `INST_SHIFT` -/

theorem instShift_sbox (b : Byte) : instShift.sbox b = b := rfl
theorem instShift_te (c : Fin 4) (b : Byte) : instShift.te c b = shiftTe c b := rfl
theorem instShift_rk (r : Fin 11) : instShift.rk r = 0 := rfl

theorem blockByte_zero (k : Fin 16) : blockByte 0 k = 0 := BitVec.extractLsb'_zero

theorem wordByte_shiftTe (c : Fin 4) (b : Byte) (k : Fin 4) : wordByte (shiftTe c b) k = if k = c then b else 0 := by
  rw [shiftTe, wordByte_wordOfBytes]

theorem wordsBlock_whiten_instShift (B : Block) : wordsBlock (whiten instShift B) = B := by
  rw [wordsBlock_whiten, instShift_rk]
  exact BitVec.xor_zero

/-- Of the four lookups only column k's reaches byte k, and it is the staggered byte itself. -/
theorem wordByte_roundWord_instShift (r : Fin 11) (t : Words) (i k : Fin 4) :
    wordByte (roundWord instShift r t i) k = src t i k := by
  rw [wordByte_roundWord]
  simp only [instShift_te, instShift_rk, wordByte_shiftTe, blockByte_zero]
  fin_cases k <;> simp

theorem mainRound_instShift (r : Fin 11) (t : Words) : mainRound instShift r t = permuteWords t := by
  refine words_ext fun i => word_ext fun k => ?_
  rw [get_mainRound, wordByte_roundWord_instShift, wordByte_permuteWords]

theorem finalRound_instShift (t : Words) : finalRound instShift t = wordsBlock (permuteWords t) := by
  refine block_ext fun k => ?_
  obtain ⟨i, j, rfl⟩ := exists_bytePos k
  rw [blockByte_finalRound, blockByte_wordsBlock, wordByte_permuteWords]
  rw [instShift_sbox, instShift_rk, blockByte_zero]
  exact BitVec.xor_zero

/-- One P of a block, by block positions (R81). -/
theorem blockByte_permuteWords (B : Block) (i j : Fin 4) :
    blockByte (wordsBlock (permuteWords (blockWords B))) (bytePos i j) = blockByte B (bytePos (i + j) j) := by
  rw [blockByte_wordsBlock, wordByte_permuteWords, src_eq_blockByte_wordsBlock, wordsBlock_blockWords]

/-- Nine main rounds and the final round are ten times P (T1: `ENC = P^10`). -/
theorem enc_instShift (B : Block) : enc instShift B = wordsBlock (permuteWords^[10] (blockWords B)) := by
  have hwhiten : whiten instShift B = blockWords B := by
    rw [← blockWords_wordsBlock (whiten instShift B), wordsBlock_whiten_instShift]
  have hstage : stage instShift B 9 = permuteWords^[9] (blockWords B) := by
    simp only [stage, mainRound_instShift, hwhiten]
    exact List.foldl_const permuteWords (blockWords B) mainRoundNumbers
  rw [enc, hstage, finalRound_instShift, Function.iterate_succ_apply' permuteWords 9]

/-- `P^10 = P^2`, by block positions. -/
theorem blockByte_enc_instShift (B : Block) (i j : Fin 4) :
    blockByte (enc instShift B) (bytePos i j) = blockByte B (bytePos (i + j + j) j) := by
  have hten : i + 10 • j = i + j + j := by decide +revert
  rw [enc_instShift, blockByte_wordsBlock, wordByte_iterate_permuteWords, hten, ← blockByte_wordsBlock,
    wordsBlock_blockWords]

theorem enc_enc_instShift (B : Block) : enc instShift (enc instShift B) = B := by
  refine block_ext fun k => ?_
  obtain ⟨i, j, rfl⟩ := exists_bytePos k
  rw [blockByte_enc_instShift, blockByte_enc_instShift, add_four_times]

/-- Settles O47: whitening is the identity, each round is P, and ENC is P twice, which undoes itself. -/
theorem shiftInstanceIsThePermutationTwice : Obligations.ShiftInstanceIsThePermutationTwice := by
  intro B
  refine ⟨wordsBlock_whiten_instShift B, fun r i j => ?mainRound, fun i j => ?finalRound, blockByte_enc_instShift B,
    enc_enc_instShift B⟩
  case mainRound => rw [mainRound_instShift, blockByte_permuteWords]
  case finalRound => rw [finalRound_instShift, blockByte_permuteWords]

end Sys2Proof.Machine
end

section
/-! The final round by bytes: what each output byte is, and which output byte a source byte reaches
(spec/43_final_round.md R83 to R87). -/

namespace Sys2Proof.Machine

/-- Settles O43: R83's formula at the output position, and what is left of it without substitution and key. -/
theorem finalRoundSubstitutesAndXorsBytewise : Obligations.FinalRoundSubstitutesAndXorsBytewise := by
  intro T t i j
  refine ⟨blockByte_finalRound T t i j, fun hsbox hkey => ?_⟩
  rw [blockByte_finalRound, hsbox, hkey, blockByte_zero, src]
  exact BitVec.xor_zero

/-! ### No diffusion (R87) -/

/-- Of the key, an output byte reads the byte at its own position only. -/
theorem blockByte_finalRound_congr_tables {T T' : Tables} {k : Fin 16} (hsbox : ∀ b, T.sbox b = T'.sbox b)
    (hkey : blockByte (T.rk 10) k = blockByte (T'.rk 10) k) (t : Words) :
    blockByte (finalRound T t) k = blockByte (finalRound T' t) k := by
  obtain ⟨i, j, rfl⟩ := exists_bytePos k
  rw [blockByte_finalRound, blockByte_finalRound, hsbox, hkey]

/-- The key cancels: an output byte tells two stage values apart exactly when the SBox tells its staggered bytes apart. -/
theorem blockByte_finalRound_eq_iff (T : Tables) (t t' : Words) (i j : Fin 4) :
    blockByte (finalRound T t) (bytePos i j) = blockByte (finalRound T t') (bytePos i j) ↔
      T.sbox (src t i j) = T.sbox (src t' i j) := by
  rw [blockByte_finalRound, blockByte_finalRound, BitVec.xor_left_inj]

/-- R85 read the other way: byte j of word w is the staggered byte of output word `w - j` at column j. -/
theorem src_sub (t : Words) (w j : Fin 4) : src t (w - j) j = wordByte (t.get w) j := by
  rw [src, sub_add_cancel]

/-- At every other output position the staggered byte is one that the two values share. -/
theorem src_congr_of_bytePos_ne {t t' : Words} {w j i c : Fin 4}
    (h : ∀ w' j', (w', j') ≠ (w, j) → wordByte (t.get w') j' = wordByte (t'.get w') j')
    (hk : bytePos i c ≠ bytePos (w - j) j) : src t i c = src t' i c := by
  refine h (i + c) c fun heq => hk ?_
  obtain ⟨hw, rfl⟩ := Prod.mk.inj heq
  rw [eq_sub_of_add_eq hw]

/-- Settles O44: one source byte reaches the output byte at `w - j` and no other, through an SBox that may tell the two
values of it apart. -/
theorem finalRoundDoesNotDiffuse : Obligations.FinalRoundDoesNotDiffuse := by
  refine ⟨fun T T' t k hsbox hkey => blockByte_finalRound_congr_tables hsbox hkey t, fun T t t' w j h => ⟨?other, ?own⟩⟩
  case other =>
    intro k hk
    obtain ⟨i, c, rfl⟩ := exists_bytePos k
    rw [blockByte_finalRound_eq_iff, src_congr_of_bytePos_ne h hk]
  case own =>
    intro hinj hne heq
    rw [blockByte_finalRound_eq_iff, src_sub, src_sub] at heq
    exact hne (hinj _ _ heq)

end Sys2Proof.Machine
end

section
/-! Each operation as one clock edge, slot by slot (spec/44_operations.md R90 to R94, R97). -/

namespace Sys2Proof.Machine

/-! ### RESET -/

/-- The output register is one of the slots (R25). -/
theorem outSlot_mem_slots (s : State) : s.outSlot ∈ s.slots := List.mem_of_getLast? (getLast?_slots s)

/-- With nothing in flight there is nothing on the outputs. -/
theorem outValid_of_quiet {s : State} (h : s.Quiet) : s.outValid = false := h _ (outSlot_mem_slots s)

theorem resetEdge_resetEdge (s : State) : resetEdge (resetEdge s) = resetEdge s := by
  simp only [resetEdge, List.map_map]
  rfl

/-- Settles O14: the RESET edge invalidates each slot, and has nothing left to invalidate the second time. -/
theorem resetClearsEveryValidBit : Obligations.ResetClearsEveryValidBit := by
  refine ⟨decode_packVector true, fun s => ⟨resetEdge s, exec_eq_edge .reset s, latency_resetEdge s,
    resetEdge_stimulus s, outValid_of_quiet (quiet_resetEdge s), fun _ _ => slot_resetEdge, ?_⟩⟩
  rw [exec_eq_edge, edge_reset, resetEdge_resetEdge]

/-! ### The frame of the data registers (R91, R94) -/

/-- Where a shift leaves no result it leaves the data, if what enters slot 1 does so too. -/
theorem slot_advance_data {s : State} {new p q : Slot} {k : Nat} (hnew : new.v = false → new.d = s.q1.d)
    (hp : s.slot k = some p) (hq : (s.advance new).slot k = some q) (hv : q.v = false) : q.d = p.d := by
  obtain ⟨hpos, hle⟩ := (slot_eq_some_iff s k).mp ⟨p, hp⟩
  obtain rfl | hk : k = 1 ∨ 2 ≤ k := by omega
  · obtain rfl : new = q := Option.some.inj hq
    obtain rfl : s.q1 = p := Option.some.inj hp
    exact hnew hv
  · obtain ⟨prev, hprev⟩ := (slot_eq_some_iff s (k - 1)).mpr (by omega)
    obtain rfl : p.shiftIn prev = q := Option.some.inj ((slot_advance new hk hprev hp).symm.trans hq)
    rw [Slot.shiftIn_v] at hv
    rw [Slot.shiftIn_d, hv]
    rfl

/-- No edge changes the data of a slot that it leaves without a result (R90 to R93). -/
theorem slot_edge_data {T : Tables} {i : Instr} {s : State} {p q : Slot} {k : Nat} (hp : s.slot k = some p)
    (hq : (edge T i s).slot k = some q) (hv : q.v = false) : q.d = p.d := by
  cases i with
  | reset =>
    obtain rfl : p.invalidate = q := Option.some.inj ((slot_resetEdge hp).symm.trans hq)
    exact Slot.invalidate_d p
  | idle => exact slot_advance_data (fun _ => Slot.invalidate_d s.q1) hp hq hv
  | encrypt B => exact slot_advance_data (fun h : true = false => nomatch h) hp hq hv

/-- The output hold of R94: the frame at slot LATENCY. -/
theorem outBlock_edge {T : Tables} {i : Instr} {s : State} (hv : (edge T i s).outValid = false) :
    (edge T i s).outBlock = s.outBlock := by
  have hout := slot_latency (edge T i s)
  rw [latency_edge] at hout
  exact slot_edge_data (slot_latency s) hout hv

/-- Settles O18: a step is the edge of the presented operation, which holds the output. -/
theorem outBlockHoldsUntilTheNextResult : Obligations.OutBlockHoldsUntilTheNextResult := by
  intro s t hstep hv
  obtain ⟨p, rest, i, -, -, rfl⟩ := step_next hstep
  rw [outBlock_edge hv, outBlock_withStimulus]

/-! ### IDLE and ENCRYPT -/

/-- Settles O15: slot 1 is invalidated, the others shift, and the output is held as at every edge. -/
theorem idleInvalidatesSlotOneAndShifts : Obligations.IdleInvalidatesSlotOneAndShifts :=
  ⟨decode_packVector false false, fun s => ⟨idleEdge s, exec_eq_edge .idle s, latency_edge Config.tables .idle s,
    idleEdge_stimulus s, outBlock_edge (T := Config.tables) (i := .idle), slot_advance_one s _,
    fun _ _ _ => slot_advance _⟩⟩

/-- Settles O16: `(1, ENC(B))` enters slot 1 and the others shift. -/
theorem encryptLoadsItsResultAndShifts : Obligations.EncryptLoadsItsResultAndShifts := fun B s =>
  ⟨encryptEdge Config.tables B s, exec_eq_edge (.encrypt B) s, latency_edge Config.tables (.encrypt B) s,
    encryptEdge_stimulus Config.tables B s, slot_advance_one s _, fun _ _ _ => slot_advance _⟩

/-- `Tables` is the three parameters and nothing more (R7). -/
theorem tables_ext {T T' : Tables} (hsbox : ∀ b, T.sbox b = T'.sbox b) (hte : ∀ c b, T.te c b = T'.te c b)
    (hrk : ∀ r, T.rk r = T'.rk r) : T = T' := by
  cases T
  cases T'
  exact (Tables.mk.injEq ..).mpr ⟨funext hsbox, funext fun c => funext (hte c), funext hrk⟩

/-- Settles O31: what an ENCRYPT puts into slot 1 does not mention the state, and `enc` reads the three parameters. -/
theorem resultDependsOnTheBlockAlone : Obligations.ResultDependsOnTheBlockAlone := by
  refine ⟨fun B s s' => ⟨_, _, exec_eq_edge (.encrypt B) s, exec_eq_edge (.encrypt B) s', ?_⟩,
    fun T T' B hsbox hte hrk => by rw [tables_ext hsbox hte hrk]⟩
  exact (slot_advance_one s _).trans (slot_advance_one s' _).symm

end Sys2Proof.Machine
end

section
/-! Results in time (spec/44_operations.md R95, R99): LATENCY operations after a state, its flight is their results,
unless a RESET has emptied it. -/

namespace Sys2Proof.Machine

theorem carried_outSlot_of_flight {s : State} {o : Option Block} {os : List (Option Block)} (h : s.flight = o :: os) :
    s.outSlot.carried = o := by
  have hhead := head_flight s
  rw [h, List.head?_cons] at hhead
  exact (Option.some.inj hhead).symm

/-- After LATENCY operations without a RESET nothing older is in flight: the oldest of them is on the outputs. -/
theorem carried_outSlot_edges (T : Tables) {first : Instr} {others : List Instr} {s : State}
    (hlength : others.length + 1 = s.latency) (hr : Instr.reset ∉ first :: others) :
    (edges T (first :: others) s).outSlot.carried = resultOf T first := by
  refine carried_outSlot_of_flight (os := others.map (resultOf T)) ?_
  rw [flight_edges T hr, List.length_cons, hlength, ← length_flight, List.drop_left, List.map_cons]

/-- Fewer than LATENCY operations after a state with nothing in flight, the outputs show nothing (R119, R121). -/
theorem outValid_edges_of_quiet (T : Tables) {ops : List Instr} {s : State} (hs : s.Quiet)
    (hlength : ops.length < s.latency) (hr : Instr.reset ∉ ops) : (edges T ops s).outValid = false := by
  obtain ⟨n, hn⟩ : ∃ n, s.latency - ops.length = n + 1 := ⟨s.latency - ops.length - 1, by omega⟩
  have hflight : (edges T ops s).flight = none :: (List.replicate n none ++ ops.map (resultOf T)) := by
    rw [flight_edges T hr, flight_of_quiet hs, List.drop_append_of_le_length (by simpa using hlength.le),
      List.drop_replicate, hn, List.replicate_succ, List.cons_append]
  rw [outValid_eq_isSome, carried_outSlot_of_flight hflight, Option.isSome_none]

/-- A RESET among the last LATENCY operations leaves nothing for the outputs (R95, R121). -/
theorem outValid_edges_of_reset_mem (T : Tables) {ops : List Instr} {s : State} (hlength : ops.length ≤ s.latency)
    (hr : Instr.reset ∈ ops) : (edges T ops s).outValid = false := by
  induction ops generalizing s with
  | nil => exact absurd hr List.not_mem_nil
  | cons i ops ih =>
    rw [List.length_cons] at hlength
    rw [edges_cons]
    by_cases hlater : Instr.reset ∈ ops
    · exact ih (by rw [latency_edge]; omega) hlater
    · obtain rfl : Instr.reset = i := (List.mem_cons.mp hr).resolve_right hlater
      exact outValid_edges_of_quiet T (quiet_resetEdge s) (by rw [edge_reset, latency_resetEdge]; omega) hlater

theorem resultOf_isSome_iff (T : Tables) (i : Instr) : (resultOf T i).isSome = true ↔ ∃ B, i = .encrypt B := by
  cases i <;> simp [resultOf]

/-- LATENCY operations on, the outputs are valid exactly for an ENCRYPT that no RESET has discarded (R95). -/
theorem outValid_edges_iff (T : Tables) {first : Instr} {others : List Instr} {s : State}
    (hlength : others.length + 1 = s.latency) :
    (edges T (first :: others) s).outValid = true ↔ (∃ B, first = .encrypt B) ∧ Instr.reset ∉ others := by
  by_cases hr : Instr.reset ∈ first :: others
  · rw [outValid_edges_of_reset_mem T (List.length_cons.trans hlength).le hr]
    refine iff_of_false Bool.false_ne_true ?_
    rintro ⟨⟨B, rfl⟩, hothers⟩
    exact hothers ((List.mem_cons.mp hr).resolve_left nofun)
  · rw [outValid_eq_isSome, carried_outSlot_edges T hlength hr, resultOf_isSome_iff]
    exact (and_iff_left fun h => hr (List.mem_cons_of_mem first h)).symm

/-- LATENCY - 1 idle cycles after the operations bring out the rest of their results, each once and in order (R95, R99). -/
theorem results_of_quiet {s : State} {ops : List Instr} (hs : s.Quiet) (hr : Instr.reset ∉ ops)
    (h : s.Presents (ops ++ List.replicate (s.latency - 1) Instr.idle)) :
    results (ops.length + (s.latency - 1)) s = ops.filterMap (resultOf Config.tables) := by
  have hr' : Instr.reset ∉ ops ++ List.replicate (s.latency - 1) Instr.idle := by
    simp [hr, List.mem_replicate]
  have hresults := results_presents hr' h
  rw [List.length_append, List.length_replicate] at hresults
  rw [hresults, flight_of_quiet hs, List.tail_append_of_ne_nil (by simp [State.latency]), List.tail_replicate,
    List.map_append, ← List.append_assoc, List.take_left' (by simp [add_comm]), List.filterMap_append,
    List.filterMap_replicate, List.filterMap_map]
  rfl

/-- Settles O24: the outputs LATENCY operations on, and the list captured from a quiet state. -/
theorem resultsAppearExactlyLatencyCyclesLater : Obligations.ResultsAppearExactlyLatencyCyclesLater := by
  refine ⟨fun s first others hlength h => ?_, fun s ops => results_of_quiet⟩
  have hrun := run_presents h
  rw [List.length_cons, hlength] at hrun
  refine ⟨_, hrun, outValid_edges_iff Config.tables hlength, ?_⟩
  rintro B rfl hothers
  have hr : Instr.reset ∉ Instr.encrypt B :: others := by simp [hothers]
  exact (outBlock_of_carried (carried_outSlot_edges Config.tables hlength hr)).2

/-- Settles O26: both lists are the results of the ENCRYPTs, in which no latency occurs. -/
theorem latencyDoesNotChangeTheResults : Obligations.LatencyDoesNotChangeTheResults := by
  intro s s' ops hs hs' hr h h'
  rw [results_of_quiet hs hr h, results_of_quiet hs' hr h']

end Sys2Proof.Machine
end

section
/-! The invariant of every run (spec/44_operations.md R98): what the slots carry is whole results. -/

namespace Sys2Proof.Machine

/-- A valid slot is one that carries its data. -/
theorem some_mem_flight_iff (s : State) (C : Block) : some C ∈ s.flight ↔ ∃ q ∈ s.slots, q.v = true ∧ q.d = C := by
  simp [State.flight, Slot.carried]

/-- The invariant's second part, said of the transactions in flight. -/
theorem holdsResults_iff_flight (s : State) :
    s.HoldsResults ↔ ∀ C, some C ∈ s.flight → ∃ B, C = enc Config.tables B := by
  simp only [State.HoldsResults, some_mem_flight_iff]
  constructor
  · rintro h C ⟨q, hq, hv, rfl⟩
    exact h q hq hv
  · exact fun h q hq hv => h q.d ⟨q, hq, hv, rfl⟩

theorem exists_enc_of_resultOf {T : Tables} {i : Instr} {C : Block} (h : resultOf T i = some C) : ∃ B, C = enc T B := by
  cases i with
  | reset => cases h
  | idle => cases h
  | encrypt B => exact ⟨B, (Option.some.inj h).symm⟩

/-- A RESET carries nothing on, and any other edge adds only the result of its own block. -/
theorem holdsResults_edge {i : Instr} {s : State} (h : s.HoldsResults) : (edge Config.tables i s).HoldsResults := by
  rw [holdsResults_iff_flight] at h ⊢
  intro C hC
  by_cases hi : i = .reset
  · subst hi
    rw [edge_reset, flight_resetEdge] at hC
    cases List.eq_of_mem_replicate hC
  · rw [flight_edge _ hi, List.mem_append, List.mem_singleton] at hC
    obtain hold | hnew := hC
    · exact h C (List.mem_of_mem_tail hold)
    · exact exists_enc_of_resultOf hnew.symm

theorem inv_edge {i : Instr} {s : State} (h : s.Inv) : (edge Config.tables i s).Inv :=
  ⟨(latency_edge Config.tables i s).trans h.1, holdsResults_edge h.2⟩

theorem inv_step {s t : State} (h : s.Inv) (hstep : step s = .next t) : t.Inv := by
  obtain ⟨p, rest, i, -, -, rfl⟩ := step_next hstep
  exact inv_edge h

/-- What every step keeps, every run keeps. -/
theorem run_keeps {P : State → Prop} (hkeep : ∀ {s t}, P s → step s = .next t → P t) {n : Nat} {s t : State} (hs : P s)
    (hrun : Host.Core.run Sys2Proof.core n s = .next t) : P t := by
  induction n generalizing s with
  | zero =>
    obtain rfl : s = t := Host.Outcome.next.inj hrun
    exact hs
  | succ n ih =>
    rw [run_succ] at hrun
    cases hstep : step s with
    | next u =>
      rw [hstep] at hrun
      exact ih (hkeep hs hstep) hrun
    | fault r => cases r
    | refused r =>
      rw [hstep] at hrun
      cases hrun

/-- Settles O35: the output register is one of the slots of which the invariant speaks. -/
theorem noPartialResultIsEverShown : Obligations.NoPartialResultIsEverShown := by
  intro n s t hs hrun hv
  obtain ⟨-, hresults⟩ := run_keeps inv_step hs hrun
  exact hresults t.outSlot (outSlot_mem_slots t) hv

end Sys2Proof.Machine
end

section
/-! The composition of ENC, and the order of the five terms of a round word (spec/44_operations.md R89, R96). -/

namespace Sys2Proof.Machine

/-- Settles O36: the stage values are built one main round at a time, and ENC is the final round of the last. -/
theorem encryptionIsElevenStagesInOrder : Obligations.EncryptionIsElevenStagesInOrder := fun T B =>
  ⟨stage_zero T B, stage_succ T B, rfl⟩

/-- Settles O42: XOR is commutative and associative, so a fold of it is the same for every permutation of its terms. -/
theorem roundTermsMayBeXoredInAnyOrder : Obligations.RoundTermsMayBeXoredInAnyOrder := by
  intro T r t i terms hperm
  rw [hperm.foldl_eq, get_mainRound, roundWord]
  simp only [List.foldl_cons, List.foldl_nil, BitVec.ofNat_eq_ofNat, BitVec.zero_xor]

end Sys2Proof.Machine
end

section
/-! The host contract at a step: which cycles are refused, and that RESET wins (spec/60_exceptions.md R104, R112). -/

namespace Sys2Proof.Machine

/-! ### Refused cycles (R112) -/

/-- Only the decoding of the ports can stop a driven cycle (R100, R106). -/
theorem step_next_iff {s : State} {p : Ports} {rest : List Ports} (h : s.stimulus = p :: rest) :
    (∃ t, step s = .next t) ↔ ∃ i, decodePorts p = .ok i := by
  cases hp : decodePorts p with
  | error e => simp [step_error h hp]
  | ok i => simp [step_ok h hp]

/-- The reason of a refusal is the one that decoding gives. -/
theorem step_inputContract_iff {s : State} {p : Ports} {rest : List Ports} (h : s.stimulus = p :: rest)
    (why : PortReject) : step s = .refused (.inputContract why) ↔ decodePorts p = .error why := by
  cases hp : decodePorts p with
  | error e => simp [step_error h hp]
  | ok i => simp [step_ok h hp]

/-- Settles O9: a driven cycle stops exactly where decoding its ports does, and that is where the contract is broken. -/
theorem stepRefusesExactlyBrokenContracts : Obligations.StepRefusesExactlyBrokenContracts := fun _ p _ h =>
  ⟨(step_next_iff h).trans (decodePorts_ok_iff p),
    (exists_congr (step_inputContract_iff h)).trans (decodePorts_error_iff p)⟩

/-! ### RESET wins (R104) -/

/-- A contract cycle with `rst = 1` is a RESET, whatever its other ports carry. -/
theorem step_of_rst {p : Ports} (hp : HostContract p) (hr : p.rst = some true) (s : State) (rest : List Ports) :
    step (s.withStimulus (p :: rest)) = exec .reset (s.withStimulus rest) := by
  rw [step_ok (withStimulus_stimulus s (p :: rest)) (decodePorts_rst hp hr), exec_eq_edge]
  rfl

/-- Settles O19: both cycles keep the contract and have `rst = 1`, so both are the same RESET. -/
theorem resetWinsOverInValid : Obligations.ResetWinsOverInValid := by
  intro s B B' rest
  have hpresented : HostContract { rst := some true, inValid := some true, inBlock := some B } :=
    ⟨rfl, rfl, fun _ => rfl⟩
  have hnothing : HostContract { rst := some true, inValid := some false, inBlock := some B' } :=
    ⟨rfl, rfl, fun _ => rfl⟩
  have hreset := step_of_rst hpresented rfl s rest
  exact ⟨hreset, hreset.trans (step_of_rst hnothing rfl s rest).symm⟩

end Sys2Proof.Machine
end

section
/-! What comes out after a RESET (spec/70_reset_and_hazards.md R119, R121). -/

namespace Sys2Proof.Machine

/-- Cycle n of a run over presented operations shows what the edges of the first n of them show. -/
theorem run_take {s : State} {ops : List Instr} {n : Nat} (h : s.Presents ops) (hn : n ≤ ops.length) :
    Host.Core.run Sys2Proof.core n s
      = .next ((edges Config.tables (ops.take n) s).withStimulus (s.stimulus.drop n)) := by
  have hrun := run_presents (presents_take n h)
  rwa [List.length_take_of_le hn] at hrun

/-- Settles O27: RESET leaves nothing in flight, so the ENCRYPT's result is the first to reach the outputs. -/
theorem firstResultAfterReset : Obligations.FirstResultAfterReset := by
  intro s B others hlength hothers h
  have hr : Instr.reset ∉ Instr.encrypt B :: others := by simp [hothers]
  constructor
  · intro j hj
    refine ⟨_, run_take h (by simp only [List.length_cons]; omega), ?_⟩
    rw [outValid_withStimulus, List.take_succ_cons, edges_cons, edge_reset]
    exact outValid_edges_of_quiet _ (quiet_resetEdge s) (by rw [List.length_take, latency_resetEdge]; omega)
      fun hmem => hr (List.mem_of_mem_take hmem)
  · have hrun := run_presents h
    rw [List.length_cons, List.length_cons, hlength] at hrun
    have hlatency := hlength.trans (latency_resetEdge s).symm
    exact ⟨_, hrun, outBlock_of_carried (carried_outSlot_edges Config.tables hlatency hr)⟩

/-! ### Nothing comes out without an ENCRYPT (R121) -/

theorem quiet_iff_valids (s : State) : s.Quiet ↔ ∀ v ∈ s.valids, v = false := by
  simp [State.Quiet, State.valids]

/-- Only an ENCRYPT puts a transaction in flight (R90 to R93). -/
theorem quiet_edge (T : Tables) {i : Instr} {s : State} (hi : ∀ B, i ≠ .encrypt B) (hs : s.Quiet) :
    (edge T i s).Quiet := by
  cases i with
  | reset => exact quiet_resetEdge s
  | idle =>
    rw [quiet_iff_valids] at hs ⊢
    rw [edge_idle, idleEdge, valids_advance, Slot.invalidate_v, List.forall_mem_cons]
    exact ⟨rfl, fun v hv => hs v (List.mem_of_mem_dropLast hv)⟩
  | encrypt B => exact absurd rfl (hi B)

theorem quiet_edges (T : Tables) {ops : List Instr} {s : State} (hops : ∀ B, Instr.encrypt B ∉ ops) (hs : s.Quiet) :
    (edges T ops s).Quiet := by
  induction ops generalizing s with
  | nil => exact hs
  | cons i ops ih =>
    simp only [List.mem_cons, not_or] at hops
    exact ih (fun B => (hops B).2) (quiet_edge T (fun B => Ne.symm (hops B).1) hs)

/-- Settles O28: the RESET leaves nothing in flight, and no later cycle of the run starts a transaction. -/
theorem resetDiscardsWorkInFlight : Obligations.ResetDiscardsWorkInFlight := by
  intro s ops n hops hn h
  refine ⟨_, run_take h (Nat.succ_le_succ hn), ?_⟩
  rw [outValid_withStimulus, List.take_succ_cons, edges_cons, edge_reset]
  exact outValid_of_quiet (quiet_edges _ (fun B hB => hops B (List.mem_of_mem_take hB)) (quiet_resetEdge s))

end Sys2Proof.Machine
end

section
/-! A full pipeline, and the valid bits as a function of the operations' names alone
(spec/70_reset_and_hazards.md R124 to R126). -/

namespace Sys2Proof.Machine

/-! ### One block a cycle (R125) -/

/-- The flight lists the slots from the last to the first. -/
theorem getElem?_flight (s : State) {k : Nat} (hpos : 1 ≤ k) (hle : k ≤ s.latency) :
    s.flight[s.latency - k]? = (s.slot k).map Slot.carried := by
  obtain ⟨n, rfl⟩ : ∃ n, k = n + 1 := ⟨k - 1, by omega⟩
  rw [State.flight, List.getElem?_reverse (by rw [List.length_map, length_slots]; omega), List.length_map, length_slots,
    List.getElem?_map, State.slot]
  congr 2
  omega

/-- A slot that carries a result is valid and holds it. -/
theorem eq_of_carried {q : Slot} {C : Block} (h : q.carried = some C) : q = { v := true, d := C } := by
  obtain ⟨v, d⟩ := q
  cases v with
  | false => cases h
  | true => exact congrArg (Slot.mk true) (Option.some.inj h)

/-- LATENCY ENCRYPTs in a row replace the whole flight by their own results, the first of them the oldest. -/
theorem flight_edges_encrypts (T : Tables) {blocks : List Block} {s : State} (hlength : blocks.length = s.latency) :
    (edges T (blocks.map Instr.encrypt) s).flight = blocks.map fun B => some (enc T B) := by
  have hr : Instr.reset ∉ blocks.map Instr.encrypt := by simp
  rw [flight_edges T hr, List.length_map, hlength, ← length_flight, List.drop_left, List.map_map]
  rfl

/-- Settles O29: place LATENCY - k of the flight is slot k, and holds the result of block LATENCY - k. -/
theorem oneBlockACycleFillsEverySlot : Obligations.OneBlockACycleFillsEverySlot := by
  intro s blocks hlength h
  have hrun := run_presents h
  rw [List.length_map, hlength] at hrun
  refine ⟨_, hrun, fun k hpos hle => ?_⟩
  obtain ⟨B, hB⟩ : ∃ B, blocks[s.latency - k]? = some B := ⟨_, List.getElem?_eq_getElem (by omega)⟩
  have hplace := getElem?_flight (edges Config.tables (blocks.map Instr.encrypt) s) hpos (by rwa [latency_edges])
  rw [latency_edges, flight_edges_encrypts _ hlength, List.getElem?_map, hB, Option.map_some] at hplace
  obtain ⟨q, hq, hcarried⟩ := Option.map_eq_some_iff.mp hplace.symm
  exact ⟨B, hB, by rw [slot_withStimulus, hq, eq_of_carried hcarried]⟩

/-! ### The valid bits alone (R124, R126) -/

/-- What the operation with a name of spec/opcode_table.json does to the valid bits `Q[1].v .. Q[LATENCY].v`. -/
def validsEdge (valids : List Bool) (mnemonic : String) : List Bool :=
  if mnemonic = "RESET" then valids.map fun _ => false else (mnemonic == "ENCRYPT") :: valids.dropLast

/-- An edge reads neither the operand, nor the data, nor the constants to find the new valid bits (R90 to R93). -/
theorem valids_edge (T : Tables) (i : Instr) (s : State) : (edge T i s).valids = validsEdge s.valids i.mnemonic := by
  cases i with
  | reset => exact valids_resetEdge s
  | idle => exact valids_advance s _
  | encrypt B => exact valids_advance s _

theorem valids_edges (T : Tables) (ops : List Instr) (s : State) :
    (edges T ops s).valids = (ops.map Instr.mnemonic).foldl validsEdge s.valids := by
  induction ops generalizing s with
  | nil => rfl
  | cons i ops ih => rw [edges_cons, ih, valids_edge, List.map_cons, List.foldl_cons]

/-- `out_valid` is the last of the valid bits (R25). -/
theorem outValid_congr_valids {s s' : State} (h : s.valids = s'.valids) : s.outValid = s'.outValid :=
  Option.some.inj (by rw [← getLast?_valids, ← getLast?_valids, h])

/-- Settles O30: the valid bits after any operations are computed from their names and the valid bits before. -/
theorem timingIsIndependentOfDataAndConstants : Obligations.TimingIsIndependentOfDataAndConstants := by
  intro T T' ops ops' s s' hs hnames
  have hvalids : (edges T ops s).valids = (edges T' ops' s').valids := by
    rw [valids_edges, valids_edges, hnames, hs]
  exact ⟨hvalids, outValid_congr_valids hvalids⟩

end Sys2Proof.Machine
end

section
/-! Encode, decode and the program lines (spec/30_encoding.md R53 to R57, R64, R65): a vector is its three fields, and an
operation ignores the fields that its decoding does not read. -/

namespace Sys2Proof

/-- Settles O1: each field is appended below the one before it, and the fields are read back where they stand. -/
theorem cycleVectorPacksThePorts : Obligations.CycleVectorPacksThePorts := by
  intro rst v B
  refine ⟨?_, vectorRst_packVector rst v B, vectorInValid_packVector rst v B, vectorInBlock_packVector rst v B⟩
  have hselect : (BitVec.ofBool rst ++ BitVec.ofBool v).toNat = rst.toNat * 2 + v.toNat := by
    cases rst <;> cases v <;> rfl
  rw [packVector, BitVec.toNat_append, ← Nat.shiftLeft_add_eq_or_of_lt B.isLt, Nat.shiftLeft_eq, hselect]
  omega

/-- Vectors are told apart by their three fields (R53). -/
theorem vector_ext {I J : CycleVector} (hrst : vectorRst I = vectorRst J) (hvalid : vectorInValid I = vectorInValid J)
    (hblock : vectorInBlock I = vectorInBlock J) : I = J := by
  rw [← packVector_fields I, ← packVector_fields J, hrst, hvalid, hblock]

theorem decode_eq_reset_iff (I : CycleVector) : decode I = .reset ↔ vectorRst I = true := by
  cases hr : vectorRst I <;> cases hv : vectorInValid I <;> simp [decode, hr, hv]

theorem decode_eq_idle_iff (I : CycleVector) : decode I = .idle ↔ vectorRst I = false ∧ vectorInValid I = false := by
  cases hr : vectorRst I <;> cases hv : vectorInValid I <;> simp [decode, hr, hv]

@[simp] theorem decode_encode (i : Instr) : decode (encode i) = i := by
  cases i with
  | reset => exact decode_packVector true false 0
  | idle => exact decode_packVector false false 0
  | encrypt B => exact decode_packVector false true B

theorem wellFormed_instr (i : Instr) : i.wellFormed = true := by
  cases i <;> rfl

/-- Settles O4: an operation and what it reads of its vector determine each other, and only ENCRYPT reads all of it. -/
theorem decodeInvertsEncode : Obligations.DecodeInvertsEncode := by
  refine ⟨fun i => ⟨wellFormed_instr i, decode_encode i⟩, fun I J => ⟨fun h => ?same, ?ignored⟩⟩
  case same =>
    cases hJ : decode J with
    | reset => exact .inl ⟨(decode_eq_reset_iff I).1 (h.trans hJ), (decode_eq_reset_iff J).1 hJ⟩
    | idle =>
      obtain ⟨hrst, hvalid⟩ := (decode_eq_idle_iff I).1 (h.trans hJ)
      obtain ⟨hrst', hvalid'⟩ := (decode_eq_idle_iff J).1 hJ
      exact .inr (.inl ⟨hrst, hrst', hvalid, hvalid'⟩)
    | encrypt B =>
      obtain ⟨hrst, hvalid, hblock⟩ := (decode_eq_encrypt_iff I B).1 (h.trans hJ)
      obtain ⟨hrst', hvalid', hblock'⟩ := (decode_eq_encrypt_iff J B).1 hJ
      exact .inr (.inr ⟨hrst, hvalid,
        vector_ext (hrst.trans hrst'.symm) (hvalid.trans hvalid'.symm) (hblock.trans hblock'.symm)⟩)
  case ignored =>
    rintro (⟨hI, hJ⟩ | ⟨hrst, hrst', hvalid, hvalid'⟩ | ⟨-, -, rfl⟩)
    · rw [(decode_eq_reset_iff I).2 hI, (decode_eq_reset_iff J).2 hJ]
    · rw [(decode_eq_idle_iff I).2 ⟨hrst, hvalid⟩, (decode_eq_idle_iff J).2 ⟨hrst', hvalid'⟩]
    · rfl

/-- Settles O5: the fields that each operation reads, off the written word. -/
theorem writtenWordsDecode : Obligations.WrittenWordsDecode :=
  ⟨(decode_eq_reset_iff _).2 (by decide), (decode_eq_reset_iff _).2 (by decide), (decode_eq_idle_iff _).2 (by decide),
    (decode_eq_idle_iff _).2 (by decide), (decode_eq_encrypt_iff _ _).2 (by decide)⟩

namespace Machine

/-! ### Program lines (R64, R65) -/

/-- Decoding what a line drives gives its operations back. -/
theorem map_decode_lineVectors (line : Line) : (lineVectors line).map decode = lineInstrs line := by
  simp [lineVectors, Function.comp_def]

theorem lineVectors_wait (n : Nat) : lineVectors (.wait n) = List.replicate n (packVector false false 0) :=
  List.map_replicate

/-- The vectors of a program are the encodings of its operations. -/
theorem flatMap_lineVectors (lines : List Line) : lines.flatMap lineVectors = (lines.flatMap lineInstrs).map encode :=
  List.map_flatMap.symm

/-- Encoded operations on the ports are presented (R53, R62). -/
theorem presents_withProgram (s : State) (ops : List Instr) : (s.withProgram (ops.map encode)).Presents ops := by
  simp [State.Presents, Function.comp_def]

/-- Settles O13: each line's vectors are the encodings of its operations, and so are a program's. -/
theorem programLinesDriveTheirOperations : Obligations.ProgramLinesDriveTheirOperations := by
  refine ⟨rfl, rfl, fun _ => rfl, lineVectors_wait, map_decode_lineVectors, fun n => ?waits, fun s lines => ?program⟩
  case waits =>
    rw [lineVectors_wait, List.flatMap_replicate]
    exact List.flatten_replicate_singleton.symm
  case program =>
    rw [flatMap_lineVectors]
    exact presents_withProgram s (lines.flatMap lineInstrs)

end Machine
end Sys2Proof
end

section
/-! What a step keeps: the invariant of every run, and the frame of the data registers (spec/10_state.md R24,
spec/44_operations.md R90 to R93). -/

namespace Sys2Proof.Machine

/-- Settles O34: a step is a clock edge, which adds nothing to the flight but the result of its own block. -/
theorem everyStepKeepsTheInvariant : Obligations.EveryStepKeepsTheInvariant := fun _ _ => inv_step

/-- A RESET leaves no slot valid, so what holds where a valid bit ends at 0 holds at every slot. -/
theorem v_of_slot_resetEdge {s : State} {k : Nat} {p q : Slot} (hp : s.slot k = some p)
    (hq : (resetEdge s).slot k = some q) : q.v = false := by
  obtain rfl : p.invalidate = q := Option.some.inj ((slot_resetEdge hp).symm.trans hq)
  exact Slot.invalidate_v p

/-- Settles O17: an operation is its clock edge, and a RESET ends with every valid bit at 0. -/
theorem dataChangesOnlyWhereAResultEnters : Obligations.DataChangesOnlyWhereAResultEnters := by
  intro i s t hexec
  obtain rfl : edge Config.tables i s = t := Host.Outcome.next.inj ((exec_eq_edge i s).symm.trans hexec)
  refine ⟨latency_edge _ i s, stimulus_edge _ i s, ?_⟩
  rintro k p q hp hq (hv | rfl)
  · exact slot_edge_data hp hq hv
  · exact slot_edge_data hp hq (v_of_slot_resetEdge hp hq)

end Sys2Proof.Machine
end

section
/-! Runs of driven cycles (spec/44_operations.md section 2, spec/60_exceptions.md R100, R112,
spec/70_reset_and_hazards.md R117, R121). -/

namespace Sys2Proof.Machine

/-- Settles O10: there is no cycle to sample. -/
theorem stepStopsWhenNothingIsDriven : Obligations.StepStopsWhenNothingIsDriven := fun _ => step_nil

/-- Settles O11: both the step and the operation are the clock edge, on the later cycles' values. -/
theorem stepRunsTheSelectedOperation : Obligations.StepRunsTheSelectedOperation := by
  intro s p rest i hs hp
  rw [step_ok hs hp, exec_eq_edge]

/-- Settles O23, by the induction on the presented operations of `run_presents`. -/
theorem runIsTheEdgesOfItsOperations : Obligations.RunIsTheEdgesOfItsOperations := fun _ _ => run_presents

/-- A stimulus that keeps the contract presents an operation in each of its cycles (R112). -/
theorem exists_presents_of_contract {s : State} (h : ∀ p ∈ s.stimulus, HostContract p) :
    ∃ ops, ops.length = s.stimulus.length ∧ s.Presents ops := by
  have hdecode : ∀ r ∈ s.stimulus.map decodePorts, r ∈ Set.range (Except.ok : Instr → Except PortReject Instr) := by
    rw [List.forall_mem_map]
    intro p hp
    obtain ⟨i, hi⟩ := (decodePorts_ok_iff p).2 (h p hp)
    exact ⟨i, hi.symm⟩
  obtain ⟨ops, hops⟩ := (Set.range_list_map _).symm.subset hdecode
  exact ⟨ops, by simpa using congrArg List.length hops, by rw [State.Presents, hops]⟩

/-- Settles O22: there is no fault to raise, and a contract stimulus presents operations, whose run is their edges. -/
theorem contractStimulusAlwaysRuns : Obligations.ContractStimulusAlwaysRuns := by
  refine ⟨fun _ r => (nomatch r), fun n s hn h => ?_⟩
  obtain ⟨ops, hlength, hops⟩ := exists_presents_of_contract h
  exact ⟨_, run_take hops (hn.trans_eq hlength.symm)⟩

/-- Settles O25: the RESET shows nothing and leaves a state with nothing in flight, which presents the other cycles. -/
theorem resultsLeaveInOrderAfterReset : Obligations.ResultsLeaveInOrderAfterReset := by
  intro s ops hr h
  obtain ⟨p, rest, -, -, hstep, hrest⟩ := presents_cons h
  rw [edge_reset] at hstep hrest
  have hquiet : ((resetEdge s).withStimulus rest).Quiet := quiet_resetEdge s
  have hlatency : ((resetEdge s).withStimulus rest).latency = s.latency := latency_resetEdge s
  rw [← hlatency] at hrest ⊢
  rw [Nat.add_assoc, Nat.add_comm 1, results, hstep]
  simp only [outValid_of_quiet hquiet]
  exact results_of_quiet hquiet hr hrest

end Sys2Proof.Machine
end

section
/-! The reset state: one RESET edge takes the power-up state to it (spec/10_state.md R32, spec/70_reset_and_hazards.md
R113, R117, R118). -/

namespace Sys2Proof.Machine

/-- Every slot after reset is its power-up slot without its valid bit (R32, R113). -/
theorem resetEdge_powerUp : resetEdge State.powerUp = State.reset := by
  simp only [resetEdge, State.powerUp, State.reset, List.map_map]
  rfl

theorem latency_powerUp : State.powerUp.latency = Config.latency := by
  simp [State.latency, State.powerUp, Config.latency]

theorem latency_reset : State.reset.latency = Config.latency := by
  rw [← resetEdge_powerUp, latency_resetEdge, latency_powerUp]

theorem quiet_reset : State.reset.Quiet := resetEdge_powerUp ▸ quiet_resetEdge State.powerUp

/-- With nothing in flight no slot is marked valid. -/
theorem holdsResults_of_quiet {s : State} (h : s.Quiet) : s.HoldsResults := fun q hq hv =>
  absurd hv (Bool.eq_false_iff.mp (h q hq))

/-- Settles O33: LATENCY slots, and nothing in flight. -/
theorem invariantHoldsAtReset : Obligations.InvariantHoldsAtReset := ⟨latency_reset, holdsResults_of_quiet quiet_reset⟩

/-- Settles O20: slot k after reset is slot k at power-up, invalidated. -/
theorem resetStateHasItsStatedValues : Obligations.ResetStateHasItsStatedValues := by
  refine ⟨latency_reset, Nat.le_add_left 1 _, outValid_of_quiet quiet_reset, fun k hpos hle => ?_⟩
  obtain ⟨p, hp⟩ := (slot_eq_some_iff State.powerUp k).mpr ⟨hpos, hle.trans_eq latency_powerUp.symm⟩
  exact ⟨p, p.invalidate, hp, resetEdge_powerUp ▸ slot_resetEdge hp, rfl, rfl⟩

/-- Settles O21: a contract cycle with `rst = 1` is a RESET, and its edge takes power-up to reset. -/
theorem oneResetCycleBootsFromPowerUp : Obligations.OneResetCycleBootsFromPowerUp := by
  intro p rest hp hr
  rw [step_of_rst hp hr, exec_eq_edge, edge_withStimulus, edge_reset, resetEdge_powerUp]

end Sys2Proof.Machine
end

section
/-! Under `INST_XOR` the lookups of a main round vanish, and only its round key is left
(spec/93_implementation_defined.md T2, spec/95_test_vectors.md W2). -/

namespace Sys2Proof.Machine

theorem instXor_sbox (b : Byte) : instXor.sbox b = b := rfl
theorem instXor_te (c : Fin 4) (b : Byte) : instXor.te c b = 0 := rfl
theorem instXor_rk (r : Fin 11) : instXor.rk r = countKey r := rfl

/-- Every byte of round key r is r (T2). -/
theorem blockByte_countKey (r : Fin 11) (k : Fin 16) : blockByte (countKey r) k = BitVec.ofNat 8 r.val := by
  obtain ⟨i, j, rfl⟩ := exists_bytePos k
  rw [countKey, blockByte_wordsBlock, get_ofWords, wordByte_wordOfBytes]

/-- `S_{r+1}` is round key r + 1 (W2). -/
theorem blockByte_stage_instXor (B : Block) (r : Fin 9) (k : Fin 16) :
    blockByte (wordsBlock (stage instXor B (r.val + 1))) k = BitVec.ofNat 8 (r.val + 1) := by
  rw [stage_succ, wordsBlock_mainRound_of_te_zero instXor_te, instXor_rk, blockByte_countKey]

/-- The final round XORs the bytes 9 of `S_9` with the bytes 10 of its key (W2). -/
theorem blockByte_enc_instXor (B : Block) (k : Fin 16) : blockByte (enc instXor B) k = 3 := by
  obtain ⟨i, j, rfl⟩ := exists_bytePos k
  have hsrc : src (stage instXor B 9) i j = BitVec.ofNat 8 9 := by
    rw [src_eq_blockByte_wordsBlock]
    exact blockByte_stage_instXor B 8 _
  rw [enc, blockByte_finalRound, hsrc, instXor_sbox, instXor_rk, blockByte_countKey]
  rfl

/-- Settles O48: each stage value is its round key, and ENC is the XOR of the last two. -/
theorem xorInstanceShowsOnlyRoundKeys : Obligations.XorInstanceShowsOnlyRoundKeys := fun B r k =>
  ⟨blockByte_stage_instXor B r k, blockByte_enc_instXor B k⟩

end Sys2Proof.Machine
end

section
/-! Under the premise `TablesAreAES` each table entry is a column of the MixColumns matrix times a substituted byte
(spec/93_implementation_defined.md G1). -/

namespace Sys2Proof.Machine

@[simp] theorem gfMul_one (s : Byte) : gfMul 1 s = s := BitVec.xor_zero
@[simp] theorem gfMul_two (s : Byte) : gfMul 2 s = xtime s := BitVec.zero_xor
@[simp] theorem gfMul_three (s : Byte) : gfMul 3 s = xtime s ^^^ s := BitVec.xor_comm s (xtime s)

/-- Table c holds column c of the matrix, times the substituted byte (G1). -/
theorem aesTe_eq_column (c : Fin 4) (b : Byte) : aesTe c b = wordOfBytes fun k => gfMul (mixColumns k c) (aesSbox b) := by
  fin_cases c <;> simp [aesTe, wordOfBytes, mixColumns]

theorem wordByte_aesTe (c : Fin 4) (b : Byte) (k : Fin 4) :
    wordByte (aesTe c b) k = gfMul (mixColumns k c) (aesSbox b) := by
  rw [aesTe_eq_column, wordByte_wordOfBytes]

/-- Settles O49: the four lookups of a main round are the four products of one row of the matrix. -/
theorem aesTablesFuseSubstitutionAndMixColumns : Obligations.AesTablesFuseSubstitutionAndMixColumns := by
  rintro T r t i k ⟨hsbox, hte⟩
  rw [get_mainRound, wordByte_roundWord, hsbox, hte]
  simp only [wordByte_aesTe]

end Sys2Proof.Machine
end
